-- ==== Sys2Proof/Word.lean ====
section
/-!
DEFINITION. Words and names: the byte, the 16-bit register value, the eight register names, the four
sections of a register and the operand reference (spec/00_scope.md R6, R8; spec/10_state.md R10).
-/

namespace Sys2Proof

/-- A byte of the instruction stream, or of one half of a general-purpose register (R6, R28). -/
abbrev Byte := BitVec 8

/-- A register's 16-bit value (`XLEN` = 16, R5, R10). -/
abbrev Word := BitVec 16

/-- `RegId` of R8: the eight registers of R10, in the listing order of the snapshot (R25, D17).
The listing order is not the order of the encoding indices (90_conflicts.md C1). -/
inductive RegId where
  | a | b | c | d | sp | bp | si | di
  deriving DecidableEq, Repr

/-- `Section` of R8: which part of a register an operand addresses. -/
inductive Section where
  /-- the full 16 bits of a byte-addressable register -/
  | x16
  /-- the low byte -/
  | l8
  /-- the high byte -/
  | h8
  /-- the full 16 bits of a pointer/index register, "not sub-addressable" -/
  | p16
  deriving DecidableEq, Repr

/-- `OperandRef` of R8: a resolved (register identity, section) pair. -/
structure OperandRef where
  reg : RegId
  sec : Section
  deriving DecidableEq, Repr

/-- The general-purpose registers of R11. -/
def RegId.isGeneral : RegId → Bool
  | .a | .b | .c | .d => true
  | .sp | .bp | .si | .di => false

/-- The sections that are 8 bits wide (R8, R55). -/
def Section.isByte : Section → Bool
  | .l8 | .h8 => true
  | .x16 | .p16 => false

/-- R14: `(r, s)` is legal when `r` is general-purpose and `s` is X16, L8 or H8, or when `r` is a
pointer/index register and `s` is P16. -/
def OperandRef.legal (o : OperandRef) : Bool :=
  match o.sec with
  | .x16 | .l8 | .h8 => o.reg.isGeneral
  | .p16 => !o.reg.isGeneral

end Sys2Proof
end

