-- ==== Sys2Proof/Config.lean ====
section
/-!
DEFINITION. The implementation parameters of spec/00_scope.md R5, as named arguments of the model, and
the one family of free values. Their default values stand in Sys2Proof/Decode.lean (`Params.default`).
-/

namespace Sys2Proof

/-- `REG_ORDER` of R52 as plain data. The source fixes `g(0) = A` and `g(3) = B`, so only `g(1)`,
`g(2)` and `p(4)` to `p(7)` are open. -/
structure RegOrder where
  g1 : RegId
  g2 : RegId
  p4 : RegId
  p5 : RegId
  p6 : RegId
  p7 : RegId
  deriving DecidableEq, Repr

/-- R52: `g` is a bijection onto `A, B, C, D` with `g(0) = A` and `g(3) = B`, and `p` is a bijection
onto `SP, BP, SI, DI`. -/
def RegOrder.wf (o : RegOrder) : Bool :=
  [o.g1, o.g2].isPerm [.c, .d] && [o.p4, o.p5, o.p6, o.p7].isPerm [.sp, .bp, .si, .di]

/-- The open parameters of R5. `none` for a width is the model's unbounded integer (D10) or unbounded
natural number (D11); `some w` is a hardware unit of that width (D23). -/
structure Params where
  /-- `MOVE_OPCODE` (R5, R57, D3) -/
  moveOpcode : BitVec 6
  /-- `REG_ORDER` (R5, R52, D4) -/
  regOrder   : RegOrder
  /-- `LEN_W` (R5, D10) -/
  lenW       : Option Nat
  /-- `ADDR_W` (R5, D11) -/
  addrW      : Option Nat
  deriving DecidableEq, Repr

/-- A setting of the parameters the spec allows: any opcode, any widths, and a `REG_ORDER` made of
the two bijections of R52. -/
def Params.wf (P : Params) : Bool := P.regOrder.wf

/-- The free draws of the snapshot's `low` and `high` values of the pointer/index registers (R25, D16,
I2): `draw` numbers the host's reads, `high` says which half. No body: nothing constrains them.
Assumption log entry 8. -/
opaque Config.pointerSubByte (draw : Nat) (r : RegId) (high : Bool) : Byte

end Sys2Proof
end

