-- ==== Sys2Proof/Syntax.lean ====
section
/-!
DEFINITION. The instructions: one constructor for each of the five rows of spec/opcode_table.json.
The fields are those of the two formats of spec/30_encoding.md (R44, R45), so that no bit of an
encoding is lost. A 3-bit index is a `BitVec 3`, so that an index outside 0 to 7 does not exist (R53).
-/

namespace Sys2Proof

/-- The four direction/width forms of the register-to-register move (R78 to R81) and the skip of an
unrecognized byte (R85). `mod` is kept and takes part in no rule (R56). -/
inductive Instr where
  /-- R78, `mov r/m8, reg8`: `d = 0`, `w = 0` -/
  | movRm8Reg8 (mod : BitVec 2) (reg rm : BitVec 3)
  /-- R79, `mov r/m16, reg16`: `d = 0`, `w = 1` -/
  | movRm16Reg16 (mod : BitVec 2) (reg rm : BitVec 3)
  /-- R80, `mov reg8, r/m8`: `d = 1`, `w = 0` -/
  | movReg8Rm8 (mod : BitVec 2) (reg rm : BitVec 3)
  /-- R81, `mov reg16, r/m16`: `d = 1`, `w = 1` -/
  | movReg16Rm16 (mod : BitVec 2) (reg rm : BitVec 3)
  /-- R85, an unrecognized opcode byte with its fields `op`, `d` and `w` -/
  | skip (op : BitVec 6) (d w : BitVec 1)
  deriving DecidableEq, Repr

end Sys2Proof
end

