-- ==== Sys2Proof/WellFormed.lean ====
section
/-!
DEFINITION. Which terms of `Instr` are instructions of the block. A move is well formed at every
operand (spec/30_encoding.md R59); a skip is well formed when its `op` is not the move class (R85).
-/

namespace Sys2Proof

/-- Well-formedness under the parameters `P`: only a skip can fail it, by carrying `MOVE_OPCODE`. -/
def Instr.wf (P : Params) : Instr → Bool
  | .movRm8Reg8 _ _ _ => true
  | .movRm16Reg16 _ _ _ => true
  | .movReg8Rm8 _ _ _ => true
  | .movReg16Rm16 _ _ _ => true
  | .skip op _ _ => op != P.moveOpcode

end Sys2Proof
end

