-- ==== Sys2Proof/Decode.lean ====
section
/-!
DEFINITION. The field extractor (spec/30_encoding.md R46 to R48), the decoder, total on any bytes
(R43, R57, R59), and the encoder written from the same formats (R44, R45), each over the parameters
and at their defaults. The default values of the parameters stand here too.
-/

namespace Sys2Proof

/-- The defaults every table, example and test vector of the spec uses (R5, D3, D4, D10, D11).
PRESUMED: `MOVE_OPCODE = 0b100010` (entry 1) and the index order A, C, D, B; SP, BP, SI, DI (entry 2)
come from general knowledge of the 8086, as the spec says itself. Unbounded widths: entry 7. -/
def Params.default : Params where
  moveOpcode := 0b100010#6
  regOrder   := ⟨.c, .d, .sp, .bp, .si, .di⟩
  lenW       := none
  addrW      := none

/-! ### The field extractor -/

/-- R46: `op(b0) = b0[7:2]`. -/
def opOf (b0 : Byte) : BitVec 6 := b0.extractLsb' 2 6

/-- R46: `d(b0) = b0[1]`. -/
def dOf (b0 : Byte) : BitVec 1 := b0.extractLsb' 1 1

/-- R46: `w(b0) = b0[0]`. -/
def wOf (b0 : Byte) : BitVec 1 := b0.extractLsb' 0 1

/-- R46: `sel(b0) = b0[1:0] = {d, w}`. -/
def selOf (b0 : Byte) : BitVec 2 := b0.extractLsb' 0 2

/-- R47: `mod(b1) = b1[7:6]`. -/
def modOf (b1 : Byte) : BitVec 2 := b1.extractLsb' 6 2

/-- R47: `reg(b1) = b1[5:3]`, normalised to 0..7. -/
def regOf (b1 : Byte) : BitVec 3 := b1.extractLsb' 3 3

/-- R47: `rm(b1) = b1[2:0]`. -/
def rmOf (b1 : Byte) : BitVec 3 := b1.extractLsb' 0 3

/-! ### The decoder -/

/-- R57, R67: the byte begins a move. -/
def isMoveByte (P : Params) (b0 : Byte) : Bool := opOf b0 == P.moveOpcode

/-- R43: 2 bytes for a move, 1 for an unrecognized byte; no other bit bears on the length. -/
def instrLength (P : Params) (b0 : Byte) : Nat := if isMoveByte P b0 then 2 else 1

/-- R44, R45, R78 to R81: the move that `d` and `w` of byte 0 select, with the fields of byte 1. -/
def moveOf (b0 b1 : Byte) : Instr :=
  if dOf b0 = 0#1 then
    if wOf b0 = 0#1 then .movRm8Reg8 (modOf b1) (regOf b1) (rmOf b1)
    else .movRm16Reg16 (modOf b1) (regOf b1) (rmOf b1)
  else
    if wOf b0 = 0#1 then .movReg8Rm8 (modOf b1) (regOf b1) (rmOf b1)
    else .movReg16Rm16 (modOf b1) (regOf b1) (rmOf b1)

/-- R44, R85: the skip of an unrecognized byte. -/
def skipOf (b0 : Byte) : Instr := .skip (opOf b0) (dOf b0) (wOf b0)

/-- Why bytes hold no whole instruction. No byte value is illegal (R59): the two reasons are
structural. -/
inductive DecodeError where
  /-- there is no byte to classify -/
  | noByte
  /-- a move's opcode byte with no second byte after it (R59, R90) -/
  | truncatedMove
  deriving DecidableEq, Repr

/-- The first instruction of a list of bytes and the bytes after it (R43, R57, R59). -/
def decodeWith (P : Params) : List Byte → Except DecodeError (Instr × List Byte)
  | [] => .error .noByte
  | b0 :: rest =>
    if isMoveByte P b0 then
      match rest with
      | [] => .error .truncatedMove
      | b1 :: rest' => .ok (moveOf b0 b1, rest')
    else .ok (skipOf b0, rest)

/-- The decoder at the spec's defaults. -/
def decode (bytes : List Byte) : Except DecodeError (Instr × List Byte) :=
  decodeWith Params.default bytes

/-! ### The encoder -/

/-- R44: byte 0 is `{op, d, w}`. -/
def byte0 (op : BitVec 6) (d w : BitVec 1) : Byte := op ++ d ++ w

/-- R45: byte 1 is `{mod, reg, rm}`. -/
def byte1 (mod : BitVec 2) (reg rm : BitVec 3) : Byte := mod ++ reg ++ rm

/-- The bytes of an instruction, first byte first (R32, R44, R45, R78 to R81, R85). -/
def encodeWith (P : Params) : Instr → List Byte
  | .movRm8Reg8 mod reg rm => [byte0 P.moveOpcode 0#1 0#1, byte1 mod reg rm]
  | .movRm16Reg16 mod reg rm => [byte0 P.moveOpcode 0#1 1#1, byte1 mod reg rm]
  | .movReg8Rm8 mod reg rm => [byte0 P.moveOpcode 1#1 0#1, byte1 mod reg rm]
  | .movReg16Rm16 mod reg rm => [byte0 P.moveOpcode 1#1 1#1, byte1 mod reg rm]
  | .skip op d w => [byte0 op d w]

/-- The encoder at the spec's defaults. -/
def encode (i : Instr) : List Byte := encodeWith Params.default i

/-! ### The opcode table's numbering -/

/-- The two bytes of the longest instruction, from a word numbered as spec/opcode_table.json numbers
it: a move's pattern is ONE 16-bit word with byte 0 (at `pc`) in bits 15:8 and byte 1 in bits 7:0, a
skip's is 8 bits (the byte at `pc`). Bits at and above `nbits` are zero. Entry 9. -/
def tableBytes (nbits w : Nat) : Byte × Byte :=
  let v := w % 2 ^ nbits
  if nbits ≤ 8 then (BitVec.ofNat 8 v, 0#8) else (BitVec.ofNat 8 (v / 256), BitVec.ofNat 8 v)

/-- The instruction the decoder reads from a word of the opcode table. -/
def decodeTableWord (nbits w : Nat) : Option Instr :=
  match decode [(tableBytes nbits w).1, (tableBytes nbits w).2] with
  | .ok (i, _) => some i
  | .error _ => none

end Sys2Proof
end

