-- ==== Sys2Proof/Machine/State.lean ====
section
/-!
DEFINITION. The state of the block as plain data: everything spec/10_state.md gives it (R10, R19 to
R22), the stream buffer of the pass (spec/20_memory.md R28), the trace output (R73), and two fields of
the model's own: the starts the host has yet to send and the number of the next snapshot draw.
-/

namespace Sys2Proof.Machine

/-- The register file of R10: eight 16-bit registers. The source has no banks, windows or hard-wired
registers (R18). -/
structure RegFile where
  a  : Word
  b  : Word
  c  : Word
  d  : Word
  sp : Word
  bp : Word
  si : Word
  di : Word
  deriving DecidableEq, Repr

/-- `Phase` of R8 and R20. -/
inductive Phase where
  | idle | scanning | done | aborted
  deriving DecidableEq, Repr

/-- `ErrCode` of R8 and R21. -/
inductive ErrCode where
  | none | malformedEmpty | malformedTruncated | invariant
  deriving DecidableEq, Repr

/-- The two causes of a malformed stream (R88). -/
inductive MalformedCause where
  | empty | truncated
  deriving DecidableEq, Repr

/-- One trace record `(dst, src)` of R73. -/
structure TraceRecord where
  dst : OperandRef
  src : OperandRef
  deriving DecidableEq, Repr

/-- The stream buffer (R28): the bytes the host supplied, by index. An unlisted index has no value
(entry 4). -/
abbrev Memory := List Host.Cell

/-- The canonical form: indices strictly rising. An unlisted index has no value, so no entry can equal
what an unlisted index reads as. -/
def Memory.wf (m : Memory) : Bool := m.Pairwise (fun x y => x.1 < y.1)

/-- What the host supplies with one `start` (R28, R65, R105): a buffer, whose byte at index `i` is the
list's element `i`, and the length input `len_in`. -/
structure StartRequest where
  bytes : List Byte
  len   : Int
  deriving DecidableEq, Repr

/-- The result of `MemRead(i, 1)` (R7, R28). -/
inductive ByteRead where
  /-- the byte at the index -/
  | byte (b : Byte)
  /-- the index is not in `0 .. len − 1`: the address space has no such index (R28, R36) -/
  | outsideStream
  /-- the index is below `len` and the host's buffer has no byte there (R42) -/
  | notSupplied
  deriving DecidableEq, Repr

/-- The state of the block, and beside it what the host has yet to send. -/
structure State where
  /-- `x`: the register file (R10 to R18) -/
  regs       : RegFile
  /-- `pc`: the cursor, a natural number (R19) -/
  pc         : Nat
  /-- the dispatcher's phase (R20) -/
  phase      : Phase
  /-- why the last pass aborted (R21) -/
  err        : ErrCode
  /-- the stream length latched at the start of the pass, a signed integer (R22) -/
  len        : Int
  /-- the stream buffer of the pass, an input that stays fixed for the pass (R27, R28, R41) -/
  mem        : Memory
  /-- the trace output of the pass, oldest record first (R26, R73) -/
  trace      : List TraceRecord
  /-- THE MODEL'S OWN: the starts the host will send, next first; each is sent when `phase` is not
  Scanning, as R105 demands of the host (entry 5) -/
  hostStarts : List StartRequest
  /-- THE MODEL'S OWN: the number of the next snapshot's free draws (R25, entry 8) -/
  draws      : Nat
  deriving DecidableEq, Repr

/-- Why a step can stop with a fault. No state that a run reaches raises either. -/
inductive Fault where
  /-- `InvariantViolation(WIDTH_MISMATCH)` of R77 and R92: a byte destination with a word source.
  Raised by a move when `transfer` has no value. SAFE: the spec names this a fault that no claim may
  pass, and no encoding reaches it. -/
  | invariantViolation
  /-- A byte outside `0 .. len − 1` was asked for (R28, R36). Raised by the fetch in phase Scanning
  with `pc ≥ len`, which no run reaches (R72). SAFE: the address space has no such index. -/
  | readOutsideStream
  deriving DecidableEq, Repr

/-- Why a step can be refused. -/
inductive Refusal where
  /-- An instruction with no meaning yet, by its mnemonic. No arm of `exec` raises it. SAFE. -/
  | notModelled (mnemonic : String)
  /-- The host's buffer holds fewer than `len` bytes (R42, D22, I10): "a model must not start one".
  Raised by the start of a pass, and by the fetch in a state that no start leads to. SAFE. -/
  | bufferShorterThanLen
  /-- `len_in` is outside the range of a hardware unit of finite `LEN_W` or `ADDR_W` (D10, D23, I12).
  Raised by the start of a pass; never at the default, unbounded widths. SAFE. -/
  | lengthOutOfRange
  deriving DecidableEq, Repr

/-- The three outcomes of a step of this machine. -/
abbrev Result := Host.Outcome State Fault Refusal

/-- R26, R103: construction, for any value of the parameter `INIT_REGS`. -/
def State.construct (init : RegFile) : State where
  regs       := init
  pc         := 0
  phase      := .idle
  err        := .none
  len        := 0
  mem        := []
  trace      := []
  hostStarts := []
  draws      := 0

/-- The machine right after construction. The spec leaves `INIT_REGS` unspecified (R26, D6); every
register is zero here. DESIGN CHOICE, UNSAFE (entry 3): claims about the machine are stated over
`State.construct init` for every `init`, or over every state. -/
def State.reset : State :=
  .construct ⟨0#16, 0#16, 0#16, 0#16, 0#16, 0#16, 0#16, 0#16⟩

end Sys2Proof.Machine
end

