-- ==== Sys2Proof/Machine/Ops.lean ====
section
/-!
DEFINITION. The named operations: registers and their halves (spec/10_state.md R10 to R13), the stream
buffer (spec/20_memory.md), the abort of a pass (spec/60_exceptions.md R88 to R91), the start of the
next one (spec/40_dispatcher.md R65), the trace (R73) and the end-of-step check (R69).
-/

namespace Sys2Proof.Machine

/-! ### Registers -/

/-- `x[r]` (R7, R10). -/
def RegFile.get (x : RegFile) : RegId → Word
  | .a => x.a
  | .b => x.b
  | .c => x.c
  | .d => x.d
  | .sp => x.sp
  | .bp => x.bp
  | .si => x.si
  | .di => x.di

/-- `x[r] <- v` (R7); every other register is unchanged. -/
def RegFile.set (x : RegFile) (r : RegId) (v : Word) : RegFile :=
  match r with
  | .a => { x with a := v }
  | .b => { x with b := v }
  | .c => { x with c := v }
  | .d => { x with d := v }
  | .sp => { x with sp := v }
  | .bp => { x with bp := v }
  | .si => { x with si := v }
  | .di => { x with di := v }

/-- R13: the low section is bits 7:0 (`BYTE_LAYOUT`, D2). -/
def lowByte (v : Word) : Byte := v.extractLsb' 0 8

/-- R13: the high section is bits 15:8. -/
def highByte (v : Word) : Byte := v.extractLsb' 8 8

/-- R13: `{high, low}`. -/
def joinBytes (high low : Byte) : Word := high ++ low

/-- R16: `x[r] <- {x[r][15:8], v8}`. -/
def RegFile.setLow (x : RegFile) (r : RegId) (v : Byte) : RegFile :=
  x.set r (joinBytes (highByte (x.get r)) v)

/-- R16: `x[r] <- {v8, x[r][7:0]}`. -/
def RegFile.setHigh (x : RegFile) (r : RegId) (v : Byte) : RegFile :=
  x.set r (joinBytes v (lowByte (x.get r)))

/-! ### The stream buffer -/

/-- The buffer's byte at an index, if the host supplied one. -/
def Memory.read : Memory → Nat → Option Byte
  | [], _ => none
  | (a, b) :: rest, i => if a = i then some b else Memory.read rest i

/-- The buffer with one byte replaced or added, in canonical form. The block itself writes no memory
(R30): only the host's load uses this. -/
def Memory.write : Memory → Nat → Byte → Memory
  | [], i, v => [(i, v)]
  | (a, b) :: rest, i, v =>
    if i < a then (i, v) :: (a, b) :: rest
    else if i = a then (i, v) :: rest
    else (a, b) :: Memory.write rest i v

/-- A list of bytes as a buffer whose first index is `start`. -/
def Memory.ofBytes (start : Nat) : List Byte → Memory
  | [] => []
  | b :: bytes => (start, b) :: Memory.ofBytes (start + 1) bytes

/-- `MemRead(i, 1)` (R7, R28): defined for `0 ≤ i < len`. Bytes at indices `≥ len` are never read,
whatever the host's buffer holds there (R36). A read changes nothing (R35). -/
def memRead (s : State) (i : Nat) : ByteRead :=
  if (i : Int) < s.len then
    match Memory.read s.mem i with
    | some b => .byte b
    | none => .notSupplied
  else .outsideStream

/-! ### Taking an exception: the abort -/

/-- The error code of a malformed-stream cause (R88). -/
def MalformedCause.code : MalformedCause → ErrCode
  | .empty => .malformedEmpty
  | .truncated => .malformedTruncated

/-- `raise MalformedStream(cause)` (R89 to R91, R93, R95): `phase <- Aborted`, `err <- code`, and
nothing else. No state is saved, no mode changes and no handler runs. There is no return from it
(R96): the host's next `start` begins a new pass. -/
def raiseMalformed (cause : MalformedCause) (s : State) : State :=
  { s with phase := .aborted, err := cause.code }

/-! ### The start of a pass -/

/-- The lengths a hardware unit of finite widths takes (D10, D23): `len` fits in `LEN_W` bits of two's
complement, and `len < 2^ADDR_W − 1`. At unbounded widths every length does. -/
def lenInRange (P : Params) (len : Int) : Bool :=
  (match P.lenW with
   | none => true
   | some w => decide (-(2 ^ w : Int) ≤ 2 * len ∧ 2 * len < 2 ^ w)) &&
  (match P.addrW with
   | none => true
   | some w => decide (len < 2 ^ w - 1))

/-- The writes that R65 makes whatever the length: `len <- L`, `pc <- 0`, `err <- NONE`,
`trace <- []`, with the pass's buffer. The register file is not changed (R27). -/
def loadPass (r : StartRequest) (s : State) : State :=
  { s with mem := Memory.ofBytes 0 r.bytes, len := r.len, pc := 0, err := .none, trace := [] }

/-- R65: what the block does when `start` arrives outside phase Scanning. A buffer shorter than `len`
(R42, D22) and a length outside the unit's range (D23) are refused. -/
def startWith (P : Params) (r : StartRequest) (s : State) : Result :=
  if !lenInRange P r.len then .refused .lengthOutOfRange
  else if (r.bytes.length : Int) < r.len then .refused .bufferShorterThanLen
  else if r.len ≤ 0 then .next (raiseMalformed .empty (loadPass r s))
  else .next { loadPass r s with phase := .scanning }

/-! ### Pieces of a step -/

/-- `emit(t)` (R73): appends one record to the trace of the current pass. -/
def State.emit (s : State) (t : TraceRecord) : State := { s with trace := s.trace ++ [t] }

/-- `x <- v`. -/
def State.withRegs (s : State) (x : RegFile) : State := { s with regs := x }

/-- `pc <- pc + n` (R19). -/
def State.advance (s : State) (n : Nat) : State := { s with pc := s.pc + n }

/-- R68's last lines, R69: `if phase = Scanning and pc >= len then phase <- Done`. -/
def State.finish (s : State) : State :=
  if s.phase = .scanning ∧ s.len ≤ (s.pc : Int) then { s with phase := .done } else s

/-- A word of the opcode table placed where the next step fetches: at `pc` and `pc + 1`, inside the
stream, in phase Scanning with no error (R72). It stands for the host's load and start. Entry 6. -/
def placeWord (s : State) (nbits w : Nat) : State :=
  { s with
    mem   := Memory.write (Memory.write s.mem s.pc (tableBytes nbits w).1) (s.pc + 1) (tableBytes nbits w).2
    len   := max s.len ((s.pc : Int) + 2)
    phase := .scanning
    err   := .none }

end Sys2Proof.Machine
end

