-- ==== Sys2Proof/Machine/Operands.lean ====
section
/-!
DEFINITION. Operands: the operand resolver (spec/30_encoding.md R49 to R52), operand selection (R54),
the section reads and writes (spec/10_state.md R15, R16) and the transfer (spec/41_mov.md R77).
-/

namespace Sys2Proof.Machine

/-- `g` of R52: the general-purpose register of an index 0 to 3. -/
def generalReg (o : RegOrder) (i : BitVec 2) : RegId :=
  if i = 0#2 then .a else if i = 1#2 then o.g1 else if i = 2#2 then o.g2 else .b

/-- `p` of R52: the pointer/index register of the index `i + 4`. -/
def pointerReg (o : RegOrder) (i : BitVec 2) : RegId :=
  if i = 0#2 then o.p4 else if i = 1#2 then o.p5 else if i = 2#2 then o.p6 else o.p7

/-- `resolve(sel, idx)` (R49, R52): the result depends only on `w = sel[0]` and `idx`. -/
def resolveWith (P : Params) (sel : BitVec 2) (idx : BitVec 3) : OperandRef :=
  let low := idx.extractLsb' 0 2
  if sel[0] then
    if idx[2] then ⟨pointerReg P.regOrder low, .p16⟩ else ⟨generalReg P.regOrder low, .x16⟩
  else
    if idx[2] then ⟨generalReg P.regOrder low, .h8⟩ else ⟨generalReg P.regOrder low, .l8⟩

/-- The resolver at the default `REG_ORDER`: the tables of R50 and R51. -/
def resolve (sel : BitVec 2) (idx : BitVec 3) : OperandRef := resolveWith Params.default sel idx

/-- R54: the direction bit `d = sel[1]` chooses which field names the destination; both operands are
resolved with the same selector (R55). -/
def operandsWith (P : Params) (sel : BitVec 2) (reg rm : BitVec 3) : TraceRecord :=
  if sel[1] then ⟨resolveWith P sel reg, resolveWith P sel rm⟩
  else ⟨resolveWith P sel rm, resolveWith P sel reg⟩

/-- A section's value: 8 or 16 bits (R15). -/
inductive SecVal where
  | byte (v : Byte)
  | word (v : Word)
  deriving DecidableEq, Repr

/-- `SecRead(x, (r, s))` (R15), on every reference, legal or not. -/
def secRead (x : RegFile) (o : OperandRef) : SecVal :=
  match o.sec with
  | .x16 => .word (x.get o.reg)
  | .p16 => .word (x.get o.reg)
  | .l8 => .byte (lowByte (x.get o.reg))
  | .h8 => .byte (highByte (x.get o.reg))

/-- `SecWrite(x, (r, s), v)` (R16), which the spec defines for a value of the section's own width;
`none` for a value of the other width. -/
def secWrite (x : RegFile) (o : OperandRef) (v : SecVal) : Option RegFile :=
  match o.sec, v with
  | .x16, .word w => some (x.set o.reg w)
  | .p16, .word w => some (x.set o.reg w)
  | .l8, .byte b => some (x.setLow o.reg b)
  | .h8, .byte b => some (x.setHigh o.reg b)
  | .x16, .byte _ => none
  | .p16, .byte _ => none
  | .l8, .word _ => none
  | .h8, .word _ => none

/-- `Transfer(x, dst, src)` (R77): a word destination takes the full 16 bits of the source register
whatever the source's section; a byte destination takes exactly the addressed byte. `none` is
`InvariantViolation(WIDTH_MISMATCH)`: a byte destination with a word source. -/
def transfer (x : RegFile) (dst src : OperandRef) : Option RegFile :=
  if dst.sec.isByte then secWrite x dst (secRead x src)
  else secWrite x dst (.word (x.get src.reg))

end Sys2Proof.Machine
end

