-- ==== Sys2Proof/Machine/Mov.lean ====
section
/-!
DEFINITION. The register-to-register move (spec/41_mov.md): the shared operation of R76 and the meanings
of its four forms (R78 to R81).
-/

namespace Sys2Proof.Machine

/-- R76, the move arm of R68. With no second byte in the stream the step aborts before any effect
(R90). Otherwise it emits the record, transfers, and advances by 2; the source is read from the state
the step began with (R7, R107). The third outcome is R77's unreachable `InvariantViolation`. -/
def moveWith (P : Params) (sel : BitVec 2) (reg rm : BitVec 3) (s : State) : Result :=
  if s.len ≤ (s.pc : Int) + 1 then .next (raiseMalformed .truncated s)
  else
    let t := operandsWith P sel reg rm
    match transfer s.regs t.dst t.src with
    | some x => .next (((s.emit t).withRegs x).advance 2).finish
    | none => .fault .invariantViolation

/-- R78 under the parameters `P`. -/
def movRm8Reg8With (P : Params) (_mod : BitVec 2) (reg rm : BitVec 3) (s : State) : Result :=
  moveWith P 0b00#2 reg rm s

/-- R79 under the parameters `P`. -/
def movRm16Reg16With (P : Params) (_mod : BitVec 2) (reg rm : BitVec 3) (s : State) : Result :=
  moveWith P 0b01#2 reg rm s

/-- R80 under the parameters `P`. -/
def movReg8Rm8With (P : Params) (_mod : BitVec 2) (reg rm : BitVec 3) (s : State) : Result :=
  moveWith P 0b10#2 reg rm s

/-- R81 under the parameters `P`. -/
def movReg16Rm16With (P : Params) (_mod : BitVec 2) (reg rm : BitVec 3) (s : State) : Result :=
  moveWith P 0b11#2 reg rm s

/-- R78, `mov r/m8, reg8`: the byte section named by `rm` takes the byte section named by `reg`. -/
def execMovRm8Reg8 (mod : BitVec 2) (reg rm : BitVec 3) (s : State) : Result :=
  movRm8Reg8With Params.default mod reg rm s

/-- R79, `mov r/m16, reg16`: the word register named by `rm` takes the one named by `reg`. -/
def execMovRm16Reg16 (mod : BitVec 2) (reg rm : BitVec 3) (s : State) : Result :=
  movRm16Reg16With Params.default mod reg rm s

/-- R80, `mov reg8, r/m8`: the byte section named by `reg` takes the byte section named by `rm`. -/
def execMovReg8Rm8 (mod : BitVec 2) (reg rm : BitVec 3) (s : State) : Result :=
  movReg8Rm8With Params.default mod reg rm s

/-- R81, `mov reg16, r/m16`: the word register named by `reg` takes the one named by `rm`. -/
def execMovReg16Rm16 (mod : BitVec 2) (reg rm : BitVec 3) (s : State) : Result :=
  movReg16Rm16With Params.default mod reg rm s

end Sys2Proof.Machine
end

