-- ==== Sys2Proof/Machine/Skip.lean ====
section
/-!
DEFINITION. The skip of an unrecognized opcode byte (spec/42_skip.md R85 to R87).
-/

namespace Sys2Proof.Machine

/-- R85: `pc <- pc + 1`, then the end-of-step check of R69. No register is written and nothing is
emitted; `op`, `d` and `w` affect nothing (R86). -/
def execSkip (_op : BitVec 6) (_d _w : BitVec 1) (s : State) : Result :=
  .next (s.advance 1).finish

end Sys2Proof.Machine
end

