-- ==== Sys2Proof/Machine/Dispatch.lean ====
section
/-! DEFINITION. One arm for each instruction: the effect of a step in phase Scanning (spec/40_dispatcher.md R68). -/

namespace Sys2Proof.Machine

def exec (i : Instr) (s : State) : Host.Outcome State Fault Refusal :=
  match i with
  -- spec/41_mov.md
  | .movRm8Reg8 mod reg rm => Sys2Proof.Machine.execMovRm8Reg8 mod reg rm s
  | .movRm16Reg16 mod reg rm => Sys2Proof.Machine.execMovRm16Reg16 mod reg rm s
  | .movReg8Rm8 mod reg rm => Sys2Proof.Machine.execMovReg8Rm8 mod reg rm s
  | .movReg16Rm16 mod reg rm => Sys2Proof.Machine.execMovReg16Rm16 mod reg rm s
  -- spec/42_skip.md
  | .skip op d w => Sys2Proof.Machine.execSkip op d w s

end Sys2Proof.Machine
end

