-- ==== Sys2Proof/Machine/Dispatcher.lean ====
section
/-!
DEFINITION. The dispatcher (spec/40_dispatcher.md R65 to R69): fetch and classify, and the body of a
step, over any executor and any setting of the parameters.
-/

namespace Sys2Proof.Machine

/-- What the fetch at `pc` gives (R67, R68). -/
inductive Fetched where
  /-- a whole instruction -/
  | instr (i : Instr)
  /-- a move's opcode byte as the last byte of the stream (R90) -/
  | truncatedMove
  /-- `pc` is not an index of the stream -/
  | outsideStream
  /-- the host's buffer lacks a byte of the stream (R42) -/
  | notSupplied
  deriving DecidableEq, Repr

/-- R67, R68: reads the byte at `pc`, classifies it, and for a move reads the byte at `pc + 1`, but only
after the check `pc + 1 < len` (R36). -/
def fetchWith (P : Params) (s : State) : Fetched :=
  match memRead s s.pc with
  | .outsideStream => .outsideStream
  | .notSupplied => .notSupplied
  | .byte b0 =>
    if isMoveByte P b0 then
      if s.len ≤ (s.pc : Int) + 1 then .truncatedMove
      else
        match memRead s (s.pc + 1) with
        | .outsideStream => .outsideStream
        | .notSupplied => .notSupplied
        | .byte b1 => .instr (moveOf b0 b1)
    else .instr (skipOf b0)

/-- The indices a step reads, in order: the `buf_addr` output (R29, R32, R35, R36, R64). A skip and a
truncated move read one byte, a move two; outside phase Scanning nothing is read (R66). -/
def readIndices (P : Params) (s : State) : List Nat :=
  match s.phase, memRead s s.pc with
  | .scanning, .byte b0 =>
    if isMoveByte P b0 ∧ ¬ s.len ≤ (s.pc : Int) + 1 then [s.pc, s.pc + 1] else [s.pc]
  | .scanning, .notSupplied => [s.pc]
  | .scanning, .outsideStream => []
  | .idle, _ => []
  | .done, _ => []
  | .aborted, _ => []

/-- Outside phase Scanning the dispatcher has no step (R66): the state stays as it is until the host
sends `start`, and then R65 applies. -/
def awaitStart (P : Params) (s : State) : Result :=
  match s.hostStarts with
  | [] => .next s
  | r :: later => startWith P r { s with hostStarts := later }

/-- The body of a step, with `run` the effect of an instruction (R65 to R69). -/
def stepBy (run : Instr → State → Result) (P : Params) (s : State) : Result :=
  match s.phase with
  | .idle => awaitStart P s
  | .done => awaitStart P s
  | .aborted => awaitStart P s
  | .scanning =>
    match fetchWith P s with
    | .instr i => run i s
    | .truncatedMove => .next (raiseMalformed .truncated s)
    | .outsideStream => .fault .readOutsideStream
    | .notSupplied => .refused .bufferShorterThanLen

/-- The effect of an instruction under the parameters `P`; `exec` is this at the defaults. -/
def execWith (P : Params) (i : Instr) (s : State) : Result :=
  match i with
  | .movRm8Reg8 mod reg rm => movRm8Reg8With P mod reg rm s
  | .movRm16Reg16 mod reg rm => movRm16Reg16With P mod reg rm s
  | .movReg8Rm8 mod reg rm => movReg8Rm8With P mod reg rm s
  | .movReg16Rm16 mod reg rm => movReg16Rm16With P mod reg rm s
  | .skip op d w => execSkip op d w s

/-- A step under the parameters `P`: the machine of any `MOVE_OPCODE`, `REG_ORDER`, `LEN_W` and
`ADDR_W` (R5); `step` is this at the defaults. -/
def stepWith (P : Params) (s : State) : Result := stepBy (execWith P) P s

end Sys2Proof.Machine
end

