-- ==== Sys2Proof/Machine/Step.lean ====
section
/-! DEFINITION. The step of the machine at the spec's defaults, and the placing of a table word. -/

namespace Sys2Proof.Machine

/-- One step: in phase Scanning one whole instruction (R68); otherwise the host's next `start` (R65) or,
with none sent, no change (R66). -/
def step (s : State) : Host.Outcome State Fault Refusal := stepBy exec Params.default s

/-- `s` with a word of the opcode table stored where the next step fetches, ready to run (entry 6). -/
def State.withFetchWord (s : State) (nbits w : Nat) : State := placeWord s nbits w

end Sys2Proof.Machine
end

