-- ==== Sys2Proof/Machine/Flags.lean ====
section
/-!
DEFINITION. Flags and status. The block has no flags, condition codes or predicates, and no instruction
writes one (spec/10_state.md R23, spec/41_mov.md R78 to R81), so there is no flag computation. Its status
is `phase` and `err`, with the output codes of R20 and R21.
-/

namespace Sys2Proof.Machine

/-- The `phase` output's encoding (R20, R64, D7). -/
def Phase.code : Phase → BitVec 2
  | .idle => 0
  | .scanning => 1
  | .done => 2
  | .aborted => 3

/-- The `err` output's encoding (R21, R64, D9). -/
def ErrCode.code : ErrCode → BitVec 2
  | .none => 0
  | .malformedEmpty => 1
  | .malformedTruncated => 2
  | .invariant => 3

end Sys2Proof.Machine
end

