-- ==== Sys2Proof/Machine/Trace.lean ====
section
/-!
DEFINITION. The text of the trace output (spec/30_encoding.md R61, R62; spec/41_mov.md R82). It is an
observability output: no register depends on it (R73). No line terminator is part of it (D15).
-/

namespace Sys2Proof.Machine

/-- `name(r)` of R62. -/
def regName : RegId → String
  | .a => "a"
  | .b => "b"
  | .c => "c"
  | .d => "d"
  | .sp => "sp"
  | .bp => "bp"
  | .si => "si"
  | .di => "di"

/-- `suffix(s)` of R62 (D14). -/
def sectionSuffix : Section → String
  | .x16 => "x"
  | .l8 => "l"
  | .h8 => "h"
  | .p16 => ""

/-- R61: operand text is `name(r) ++ suffix(s)`. -/
def operandText (o : OperandRef) : String := regName o.reg ++ sectionSuffix o.sec

/-- `render(dst, src)` of R82. -/
def render (t : TraceRecord) : String :=
  "mov " ++ operandText t.dst ++ ", " ++ operandText t.src

/-- The text an instruction has: a move's line, and none for a skipped byte (R63). -/
def instrTextWith (P : Params) : Instr → Option String
  | .movRm8Reg8 _ reg rm => some (render (operandsWith P 0b00#2 reg rm))
  | .movRm16Reg16 _ reg rm => some (render (operandsWith P 0b01#2 reg rm))
  | .movReg8Rm8 _ reg rm => some (render (operandsWith P 0b10#2 reg rm))
  | .movReg16Rm16 _ reg rm => some (render (operandsWith P 0b11#2 reg rm))
  | .skip _ _ _ => none

/-- The text output of a pass: one line for each record, in the order of the moves (R73). -/
def traceText (s : State) : List String := s.trace.map render

end Sys2Proof.Machine
end

