-- ==== Sys2Proof/Machine/HostPort.lean ====
section
/-!
DEFINITION. What the host can do to the block and read from it (spec/40_dispatcher.md R64, R74;
spec/10_state.md R25): send a start, and read the status, the cursor and the snapshot. The host can
neither write a register (R18) nor change the buffer during a pass (R41).
-/

namespace Sys2Proof.Machine

/-- The host's next `start`, after those it has already scheduled. The block takes it when `phase` is
not Scanning (R64, R65, R105). -/
def State.send (s : State) (r : StartRequest) : State :=
  { s with hostStarts := s.hostStarts ++ [r] }

/-- One record of the snapshot (R25). -/
structure SnapshotRecord where
  name : String
  full : Word
  low  : Byte
  high : Byte
  deriving DecidableEq, Repr

/-- The record of one register: for a general-purpose register the two halves of its value, for a
pointer/index register two free draws, under no law (R25, D16, I2). -/
def snapshotRecord (draw : Nat) (x : RegFile) (r : RegId) : SnapshotRecord :=
  if r.isGeneral then ⟨regName r, x.get r, lowByte (x.get r), highByte (x.get r)⟩
  else ⟨regName r, x.get r, Config.pointerSubByte draw r false, Config.pointerSubByte draw r true⟩

/-- The snapshot: eight records in the order a, b, c, d, sp, bp, si, di (R25, D17). -/
def snapshot (draw : Nat) (x : RegFile) : List SnapshotRecord :=
  [.a, .b, .c, .d, .sp, .bp, .si, .di].map (snapshotRecord draw x)

/-- The host reads the snapshot, in any phase (R25). Each read has draws of its own (I2): the number of
the next read's draws moves on, and nothing else changes. -/
def readSnapshot (s : State) : List SnapshotRecord × State :=
  (snapshot s.draws s.regs, { s with draws := s.draws + 1 })

/-- The status outputs of R64: `phase`, `err` and `pc` (R74). -/
structure StatusOutputs where
  phase : BitVec 2
  err   : BitVec 2
  pc    : Nat
  deriving DecidableEq, Repr

/-- The host reads `phase`, `err` and `pc` (R64, R74). -/
def statusOutputs (s : State) : StatusOutputs := ⟨s.phase.code, s.err.code, s.pc⟩

end Sys2Proof.Machine
end

