-- ==== Sys2Proof/Safety.lean ====
section
/-!
DEFINITION. The terms claims are stated in: the invariants of spec/40_dispatcher.md R72, the end of a
pass, the machine at any setting of the parameters, and the source's loop over a list of bytes as a
function that stands beside the machine.
-/

namespace Sys2Proof.Machine

/-- The invariants of R20, R21 and R72, with the host's duty of R42 (the buffer holds every byte of the
stream) and the canonical form of the buffer. -/
structure Inv (P : Params) (s : State) : Prop where
  /-- `pc ≤ max(len, 0)` -/
  pcBound       : (s.pc : Int) ≤ max s.len 0
  /-- `phase = Idle`: `pc = 0`, `err = NONE` (R20) -/
  idle          : s.phase = .idle → s.pc = 0 ∧ s.err = .none
  /-- `phase = Scanning ⇒ pc < len` -/
  scanning      : s.phase = .scanning → (s.pc : Int) < s.len
  /-- `phase = Done ⇒ pc = len ∧ err = NONE`, and `len > 0` (R20) -/
  done          : s.phase = .done → (s.pc : Int) = s.len ∧ 0 < s.len ∧ s.err = .none
  /-- `phase = Aborted ⇔ err ≠ NONE` -/
  abortedIff    : s.phase = .aborted ↔ s.err ≠ .none
  /-- `err = MALFORMED_EMPTY ⇒ pc = 0 ∧ len ≤ 0` -/
  empty         : s.err = .malformedEmpty → s.pc = 0 ∧ s.len ≤ 0
  /-- `err = MALFORMED_TRUNCATED ⇒ pc = len − 1 ∧ op(MemRead(pc, 1)) = MOVE_OPCODE` -/
  truncated     : s.err = .malformedTruncated →
    (s.pc : Int) = s.len - 1 ∧ (Memory.read s.mem s.pc).map opOf = some P.moveOpcode
  /-- no reachable state holds `INVARIANT` (R21, R92) -/
  noInvariant   : s.err ≠ .invariant
  /-- the buffer is in canonical form -/
  memCanonical  : Memory.wf s.mem = true
  /-- the buffer holds at least `len` bytes (R42) -/
  bufferCovers  : ∀ i < s.len.toNat, (Memory.read s.mem i).isSome = true

/-! ### The states R68 leaves, written field by field -/

/-- After a skip (R85, R69). -/
def skippedState (s : State) : State :=
  { s with
    pc    := s.pc + 1
    phase := if s.len ≤ (s.pc : Int) + 1 then .done else .scanning }

/-- After an executed move with operands `dst` and `src` that left the register file `x` (R76, R69). -/
def movedState (s : State) (dst src : OperandRef) (x : RegFile) : State :=
  { s with
    regs  := x
    pc    := s.pc + 2
    trace := s.trace ++ [⟨dst, src⟩]
    phase := if s.len ≤ (s.pc : Int) + 2 then .done else .scanning }

/-- After a truncated move (R90): only `phase` and `err` change. -/
def truncatedState (s : State) : State :=
  { s with phase := .aborted, err := .malformedTruncated }

/-- The destination section of an instruction (R54, R78 to R81); a skip has none (R85). -/
def destinationOf : Instr → Option OperandRef
  | .movRm8Reg8 _ _ rm => some (resolve 0b00#2 rm)
  | .movRm16Reg16 _ _ rm => some (resolve 0b01#2 rm)
  | .movReg8Rm8 _ reg _ => some (resolve 0b10#2 reg)
  | .movReg16Rm16 _ reg _ => some (resolve 0b11#2 reg)
  | .skip _ _ _ => none

/-- A function of the state applied to the next state, where there is one. -/
def onNext (f : State → State) : Result → Result
  | .next t => .next (f t)
  | .fault r => .fault r
  | .refused r => .refused r

/-! ### Passes -/

/-- A length a unit of finite widths does not take: one that is no `LEN_W`-bit two's-complement value
(`−2^w ≤ 2·len < 2^w` fails, D10), or one that is not below `2^ADDR_W − 1` (D23). -/
def LengthOutOfRange (P : Params) (len : Int) : Prop :=
  (∃ w, P.lenW = some w ∧ (2 * len < -(2 ^ w) ∨ 2 ^ w ≤ 2 * len)) ∨
  (∃ w, P.addrW = some w ∧ 2 ^ w - 1 ≤ len)

/-- A pass has ended: Done or Aborted (R66). -/
def passEnded (s : State) : Bool := s.phase == .done || s.phase == .aborted

/-- The machine at any setting of the parameters; `core` is this at the defaults. -/
def coreWith (P : Params) : Host.Core where
  State := State
  Fault := Fault
  Refusal := Refusal
  step := stepWith P
  reset := State.reset

/-- What a whole pass leaves, and the instructions it is made of (R71, R74). -/
structure StreamEnd where
  regs      : RegFile
  trace     : List TraceRecord
  skips     : Nat
  moves     : Nat
  truncated : Bool
  deriving DecidableEq, Repr

/-- The source's loop read as a function of the stream alone: every move transfers and is recorded, every
other byte is skipped, and a move cut off by the end of the stream ends the pass (R2, R68, R91). -/
def runStream (P : Params) : List Byte → RegFile → StreamEnd
  | [], x => ⟨x, [], 0, 0, false⟩
  | [b0], x => if isMoveByte P b0 then ⟨x, [], 0, 0, true⟩ else ⟨x, [], 1, 0, false⟩
  | b0 :: b1 :: rest, x =>
    if isMoveByte P b0 then
      let t := operandsWith P (selOf b0) (regOf b1) (rmOf b1)
      let e := runStream P rest ((transfer x t.dst t.src).getD x)
      { e with trace := t :: e.trace, moves := e.moves + 1 }
    else
      let e := runStream P (b1 :: rest) x
      { e with skips := e.skips + 1 }

/-- The steps a pass takes: one for each skip, each move, and the abort of a truncated move (R71). -/
def StreamEnd.steps (e : StreamEnd) : Nat := e.skips + e.moves + (if e.truncated then 1 else 0)

end Sys2Proof.Machine
end

