-- ==== Sys2Proof/Certificates/Slice0/Obligations.lean ====
section
/-!
DEFINITION. The statements for the provers. Each names the rule of the spec it formalises. A statement
over `P : Params` holds of the machine at every `MOVE_OPCODE`, `REG_ORDER`, `LEN_W` and `ADDR_W` (R5);
one over `exec`, `step` or `resolve` is about the spec's defaults.
-/

open Sys2Proof Sys2Proof.Machine

/-! ### Encoding -/

/-- The bytes of the spec's examples V1 to V4 and K2 decode to the instructions they stand for, and a
move's opcode byte alone decodes to none. The bytes rest on log entries 1 and 2. -/
def Obligations.ExampleBytesDecode : Prop :=
  decode [0b10001000#8, 0b11000100#8] = .ok (.movRm8Reg8 0b11#2 0b000#3 0b100#3, []) ∧
  decode [0b10001001#8, 0b11011000#8] = .ok (.movRm16Reg16 0b11#2 0b011#3 0b000#3, []) ∧
  decode [0b10001010#8, 0b11100000#8] = .ok (.movReg8Rm8 0b11#2 0b100#3 0b000#3, []) ∧
  decode [0b10001011#8, 0b11000011#8] = .ok (.movReg16Rm16 0b11#2 0b000#3 0b011#3, []) ∧
  decode [0b10100001#8] = .ok (.skip 0b101000#6 0#1 1#1, []) ∧
  decode [0b10001011#8] = .error .truncatedMove

/-- R46, R47: each field is the named bits of its byte. -/
def Obligations.FieldsAreTheNamedBits : Prop :=
  ∀ b0 b1 : Byte,
    (opOf b0).toNat = b0.toNat / 4 ∧
    (dOf b0).toNat = b0.toNat / 2 % 2 ∧
    (wOf b0).toNat = b0.toNat % 2 ∧
    selOf b0 = dOf b0 ++ wOf b0 ∧
    (modOf b1).toNat = b1.toNat / 64 ∧
    (regOf b1).toNat = b1.toNat / 8 % 8 ∧
    (rmOf b1).toNat = b1.toNat % 8

/-- R43: bits 7 to 2 of the first byte alone decide the length, and with two bytes at hand no bytes are
refused (R59). -/
def Obligations.FirstByteAloneDecidesTheLength : Prop :=
  ∀ (P : Params) (b0 b1 : Byte) (rest : List Byte),
    (opOf b0 = P.moveOpcode → ∃ i, decodeWith P (b0 :: b1 :: rest) = .ok (i, rest)) ∧
    (opOf b0 ≠ P.moveOpcode → ∃ i, decodeWith P (b0 :: b1 :: rest) = .ok (i, b1 :: rest))

/-- Every well-formed instruction, with every operand at every value, is read back from its encoding,
whatever follows it and whatever the parameters. -/
def Obligations.DecodeOfEncodeIsTheInstruction : Prop :=
  ∀ (P : Params) (i : Instr) (rest : List Byte), i.wf P = true →
    decodeWith P (encodeWith P i ++ rest) = .ok (i, rest)

/-- What the decoder reads is well formed and encodes to exactly the bytes it consumed. -/
def Obligations.EncodeOfDecodeIsTheBytes : Prop :=
  ∀ (P : Params) (bytes rest : List Byte) (i : Instr), decodeWith P bytes = .ok (i, rest) →
    i.wf P = true ∧ encodeWith P i ++ rest = bytes

/-! ### Operands -/

/-- R49 to R52: the resolver is the table made of the two bijections `g` and `p` that REG_ORDER names, with
`g(0) = A` and `g(3) = B` whatever it says; at the default they are (A, C, D, B) and (SP, BP, SI, DI), which rests on log entry 2. -/
def Obligations.ResolverFollowsTheRegisterOrder : Prop :=
  ∀ P : Params, P.wf = true →
    ∃ g p : Fin 4 → RegId,
      Function.Injective g ∧ Function.Injective p ∧
      (∀ i, (g i).isGeneral = true) ∧ (∀ i, (p i).isGeneral = false) ∧
      g 0 = .a ∧ g 1 = P.regOrder.g1 ∧ g 2 = P.regOrder.g2 ∧ g 3 = .b ∧
      p 0 = P.regOrder.p4 ∧ p 1 = P.regOrder.p5 ∧ p 2 = P.regOrder.p6 ∧ p 3 = P.regOrder.p7 ∧
      (∀ (sel : BitVec 2) (i : Fin 4),
        (sel[0] = true →
          resolveWith P sel (BitVec.ofNat 3 i) = ⟨g i, .x16⟩ ∧
          resolveWith P sel (BitVec.ofNat 3 (i + 4 : Nat)) = ⟨p i, .p16⟩) ∧
        (sel[0] = false →
          resolveWith P sel (BitVec.ofNat 3 i) = ⟨g i, .l8⟩ ∧
          resolveWith P sel (BitVec.ofNat 3 (i + 4 : Nat)) = ⟨g i, .h8⟩)) ∧
      (P.regOrder = Params.default.regOrder →
        [g 0, g 1, g 2, g 3] = [.a, .c, .d, .b] ∧ [p 0, p 1, p 2, p 3] = [.sp, .bp, .si, .di])

/-- R14, R49: the resolver gives only legal references, each for exactly one width and index, and every
legal reference is some index of some width. -/
def Obligations.ResolverAliasesNoRegister : Prop :=
  ∀ P : Params, P.wf = true →
    (∀ sel idx, (resolveWith P sel idx).legal = true) ∧
    (∀ (sel sel' : BitVec 2) (idx idx' : BitVec 3), resolveWith P sel idx = resolveWith P sel' idx' →
      sel[0] = sel'[0] ∧ idx = idx') ∧
    (∀ o : OperandRef, o.legal = true → ∃ sel idx, resolveWith P sel idx = o)

/-- R17: the sections of a register are independent, a word write reads back as its two halves, and a
section write leaves every other register alone. -/
def Obligations.SectionsOfARegisterAreIndependent : Prop :=
  ∀ (x : RegFile) (r : RegId) (v8 : Byte) (v16 : Word),
    (∃ y, secWrite x ⟨r, .l8⟩ (.byte v8) = some y ∧
      secRead y ⟨r, .h8⟩ = secRead x ⟨r, .h8⟩ ∧ ∀ q, q ≠ r → y.get q = x.get q) ∧
    (∃ y, secWrite x ⟨r, .h8⟩ (.byte v8) = some y ∧
      secRead y ⟨r, .l8⟩ = secRead x ⟨r, .l8⟩ ∧ ∀ q, q ≠ r → y.get q = x.get q) ∧
    (∃ y, secWrite x ⟨r, .x16⟩ (.word v16) = some y ∧
      secRead y ⟨r, .l8⟩ = .byte (v16.extractLsb' 0 8) ∧
      secRead y ⟨r, .h8⟩ = .byte (v16.extractLsb' 8 8) ∧ ∀ q, q ≠ r → y.get q = x.get q) ∧
    (∃ y, secWrite x ⟨r, .p16⟩ (.word v16) = some y ∧ ∀ q, q ≠ r → y.get q = x.get q)

/-- R77, on every pair of references: which pair has no value, and what each other pair copies. -/
def Obligations.TransferCopiesTheSourceSection : Prop :=
  ∀ (x : RegFile) (dst src : OperandRef),
    (transfer x dst src = none ↔ dst.sec.isByte = true ∧ src.sec.isByte = false) ∧
    ∀ y, transfer x dst src = some y →
      (∀ q, q ≠ dst.reg → y.get q = x.get q) ∧
      (dst.sec.isByte = false → y.get dst.reg = x.get src.reg) ∧
      (dst.sec.isByte = true → secRead y dst = secRead x src ∧
        ∀ o : OperandRef, o.sec.isByte = true → o ≠ dst → secRead y o = secRead x o)

/-! ### The move -/

/-- R78: with its second byte in the stream the byte section named by `rm` takes the one named by
`reg`, every other byte of the register file keeps its value, and `reg = rm` changes nothing; without
it the step aborts before any effect. `mod` plays no part. -/
def Obligations.MovRm8Reg8CopiesAByte : Prop :=
  ∀ (mod : BitVec 2) (reg rm : BitVec 3) (s : State), s.phase = .scanning →
    (s.len ≤ (s.pc : Int) + 1 → exec (.movRm8Reg8 mod reg rm) s = .next (truncatedState s)) ∧
    ((s.pc : Int) + 1 < s.len →
      ∃ x, secWrite s.regs (resolve 0b00#2 rm) (secRead s.regs (resolve 0b00#2 reg)) = some x ∧
        exec (.movRm8Reg8 mod reg rm) s = .next (movedState s (resolve 0b00#2 rm) (resolve 0b00#2 reg) x) ∧
        secRead x (resolve 0b00#2 rm) = secRead s.regs (resolve 0b00#2 reg) ∧
        (∀ o : OperandRef, o.sec.isByte = true → o ≠ resolve 0b00#2 rm → secRead x o = secRead s.regs o) ∧
        (reg = rm → x = s.regs))

/-- R79: with its second byte in the stream the word register named by `rm` takes all 16 bits of the one
named by `reg`, and `reg = rm` changes nothing; without it the step aborts before any effect. -/
def Obligations.MovRm16Reg16CopiesAWord : Prop :=
  ∀ (mod : BitVec 2) (reg rm : BitVec 3) (s : State), s.phase = .scanning →
    (s.len ≤ (s.pc : Int) + 1 → exec (.movRm16Reg16 mod reg rm) s = .next (truncatedState s)) ∧
    ((s.pc : Int) + 1 < s.len →
      ∃ x, exec (.movRm16Reg16 mod reg rm) s = .next (movedState s (resolve 0b01#2 rm) (resolve 0b01#2 reg) x) ∧
        x.get (resolve 0b01#2 rm).reg = s.regs.get (resolve 0b01#2 reg).reg ∧
        (∀ q, q ≠ (resolve 0b01#2 rm).reg → x.get q = s.regs.get q) ∧
        (reg = rm → x = s.regs))

/-- R80: as R78 with the roles of `reg` and `rm` exchanged: the byte section named by `reg` takes the
one named by `rm`. -/
def Obligations.MovReg8Rm8CopiesAByte : Prop :=
  ∀ (mod : BitVec 2) (reg rm : BitVec 3) (s : State), s.phase = .scanning →
    (s.len ≤ (s.pc : Int) + 1 → exec (.movReg8Rm8 mod reg rm) s = .next (truncatedState s)) ∧
    ((s.pc : Int) + 1 < s.len →
      ∃ x, secWrite s.regs (resolve 0b10#2 reg) (secRead s.regs (resolve 0b10#2 rm)) = some x ∧
        exec (.movReg8Rm8 mod reg rm) s = .next (movedState s (resolve 0b10#2 reg) (resolve 0b10#2 rm) x) ∧
        secRead x (resolve 0b10#2 reg) = secRead s.regs (resolve 0b10#2 rm) ∧
        (∀ o : OperandRef, o.sec.isByte = true → o ≠ resolve 0b10#2 reg → secRead x o = secRead s.regs o) ∧
        (reg = rm → x = s.regs))

/-- R81: as R79 with the roles of `reg` and `rm` exchanged: the word register named by `reg` takes all
16 bits of the one named by `rm`. -/
def Obligations.MovReg16Rm16CopiesAWord : Prop :=
  ∀ (mod : BitVec 2) (reg rm : BitVec 3) (s : State), s.phase = .scanning →
    (s.len ≤ (s.pc : Int) + 1 → exec (.movReg16Rm16 mod reg rm) s = .next (truncatedState s)) ∧
    ((s.pc : Int) + 1 < s.len →
      ∃ x, exec (.movReg16Rm16 mod reg rm) s = .next (movedState s (resolve 0b11#2 reg) (resolve 0b11#2 rm) x) ∧
        x.get (resolve 0b11#2 reg).reg = s.regs.get (resolve 0b11#2 rm).reg ∧
        (∀ q, q ≠ (resolve 0b11#2 reg).reg → x.get q = s.regs.get q) ∧
        (reg = rm → x = s.regs))

/-- R84: a byte move between the two halves of one register leaves both halves equal to the source byte;
the indices `i` and `i + 4` name the two halves. -/
def Obligations.MoveBetweenHalvesMakesThemEqual : Prop :=
  ∀ (mod : BitVec 2) (i : BitVec 3) (s : State), s.phase = .scanning → (s.pc : Int) + 1 < s.len →
    (resolve 0b00#2 (i + 4#3)).reg = (resolve 0b00#2 i).reg ∧
    ∃ (v : Byte) (t u : State), secRead s.regs (resolve 0b00#2 i) = .byte v ∧
      exec (.movRm8Reg8 mod i (i + 4#3)) s = .next t ∧
      exec (.movReg8Rm8 mod (i + 4#3) i) s = .next u ∧
      t = u ∧ t.regs.get (resolve 0b00#2 i).reg = v ++ v

/-- R83: a move's word and the word with `d` flipped and the two fields exchanged have one effect,
whatever `mod` holds; and no other word has its operands: two moves have the same destination and source
exactly when they have one width and equal, or exchanged, direction and fields. The effects agree outside
phase Scanning too, where an instruction's effect is log entry 12's. -/
def Obligations.AMoveHasExactlyTwoFieldEncodings : Prop :=
  ∀ P : Params, P.wf = true →
    (∀ (mod mod' : BitVec 2) (i j : BitVec 3) (s : State),
      execWith P (.movReg8Rm8 mod i j) s = execWith P (.movRm8Reg8 mod' j i) s ∧
      execWith P (.movReg16Rm16 mod i j) s = execWith P (.movRm16Reg16 mod' j i) s) ∧
    (∀ b0 b1 b0' b1' : Byte,
      operandsWith P (selOf b0) (regOf b1) (rmOf b1) = operandsWith P (selOf b0') (regOf b1') (rmOf b1') ↔
        wOf b0 = wOf b0' ∧
        ((dOf b0 = dOf b0' ∧ regOf b1 = regOf b1' ∧ rmOf b1 = rmOf b1') ∨
         (dOf b0 ≠ dOf b0' ∧ regOf b1 = rmOf b1' ∧ rmOf b1 = regOf b1')))

/-- R106: a move may read the register the preceding move wrote, and gets the written value. -/
def Obligations.AMoveSeesThePrecedingMove : Prop :=
  ∀ (mod mod' : BitVec 2) (i j k : BitVec 3) (s : State), s.phase = .scanning → (s.pc : Int) + 3 < s.len →
    (∃ t u, exec (.movReg16Rm16 mod j i) s = .next t ∧ exec (.movReg16Rm16 mod' k j) t = .next u ∧
      u.regs.get (resolve 0b11#2 k).reg = s.regs.get (resolve 0b11#2 i).reg) ∧
    (∃ t u, exec (.movRm8Reg8 mod i j) s = .next t ∧ exec (.movRm8Reg8 mod' j k) t = .next u ∧
      secRead u.regs (resolve 0b00#2 k) = secRead s.regs (resolve 0b00#2 i))

/-- The frame of the four moves, on every state (outside phase Scanning by log entry 12): the buffer, `len`, the host's starts and the draw
number stay; every register but the destination's stays; `err` stays unless the move was truncated;
the trace keeps its records and gains at most one. -/
def Obligations.FrameOfTheMoves : Prop :=
  ∀ (i : Instr) (dst : OperandRef) (s t : State), destinationOf i = some dst → exec i s = .next t →
    (∀ a, Memory.read t.mem a = Memory.read s.mem a) ∧
    t.mem = s.mem ∧ t.len = s.len ∧ t.hostStarts = s.hostStarts ∧ t.draws = s.draws ∧
    (∀ q, q ≠ dst.reg → t.regs.get q = s.regs.get q) ∧
    (t.err = s.err ∨ (t = truncatedState s ∧ s.len ≤ (s.pc : Int) + 1)) ∧
    (t.trace = s.trace ∨ ∃ r : TraceRecord, r.dst = dst ∧ t.trace = s.trace ++ [r])

/-! ### The skip -/

/-- R85: in phase Scanning a skip advances the cursor by 1, runs the end-of-step check, and changes
nothing else; a byte at the cursor whose opcode is not the move class is skipped, the last byte of the
stream too. -/
def Obligations.SkipConsumesOneByte : Prop :=
  ∀ s : State, s.phase = .scanning →
    (∀ op d w, exec (.skip op d w) s = .next (skippedState s)) ∧
    (∀ (P : Params) (b0 : Byte), (s.pc : Int) < s.len → Memory.read s.mem s.pc = some b0 →
      opOf b0 ≠ P.moveOpcode → stepWith P s = .next (skippedState s))

/-- The frame of the skip, on every state (outside phase Scanning by log entry 12): only `pc` and `phase` may change. -/
def Obligations.FrameOfTheSkip : Prop :=
  ∀ (op : BitVec 6) (d w : BitVec 1) (s t : State), exec (.skip op d w) s = .next t →
    (∀ a, Memory.read t.mem a = Memory.read s.mem a) ∧
    (∀ q, t.regs.get q = s.regs.get q) ∧
    t = { s with pc := s.pc + 1, phase := t.phase } ∧
    (t.phase = s.phase ∨ (s.phase = .scanning ∧ t.phase = .done))

/-! ### The dispatcher -/

/-- R68: in phase Scanning, with the bytes of the stream supplied, a step is a skip, the abort of a
truncated move, or a move. -/
def Obligations.StepFollowsTheDispatcher : Prop :=
  ∀ (P : Params) (s : State) (b0 : Byte), s.phase = .scanning → (s.pc : Int) < s.len →
    Memory.read s.mem s.pc = some b0 →
    (opOf b0 ≠ P.moveOpcode → stepWith P s = .next (skippedState s)) ∧
    (opOf b0 = P.moveOpcode → s.len ≤ (s.pc : Int) + 1 → stepWith P s = .next (truncatedState s)) ∧
    (opOf b0 = P.moveOpcode → (s.pc : Int) + 1 < s.len →
      ∀ b1, Memory.read s.mem (s.pc + 1) = some b1 →
        ∃ dst src x,
          dst = resolveWith P (selOf b0) (if dOf b0 = 1#1 then regOf b1 else rmOf b1) ∧
          src = resolveWith P (selOf b0) (if dOf b0 = 1#1 then rmOf b1 else regOf b1) ∧
          transfer s.regs dst src = some x ∧
          stepWith P s = .next (movedState s dst src x))

/-- A step runs the decoded instruction: when the stream's bytes at the cursor decode to an instruction,
the step in phase Scanning is that instruction's effect. -/
def Obligations.StepRunsTheDecodedInstruction : Prop :=
  ∀ (s : State) (bytes : List Byte) (i : Instr), s.phase = .scanning → decode bytes = .ok (i, []) →
    (∀ j < bytes.length, ((s.pc + j : Nat) : Int) < s.len ∧ Memory.read s.mem (s.pc + j) = bytes[j]?) →
    step s = exec i s

/-- A word of the opcode table placed for the next step is what the next step runs (log entry 6). -/
def Obligations.PlacedTableWordRuns : Prop :=
  ∀ (s : State) (nbits w : Nat) (i : Instr), Memory.wf s.mem = true → decodeTableWord nbits w = some i →
    step (s.withFetchWord nbits w) = exec i (s.withFetchWord nbits w)

/-- R66: in phases Idle, Done and Aborted, with no start sent, the state stays as it is; and Done is
reached only from phase Scanning, by exhausting the stream. -/
def Obligations.NothingHappensUntilStart : Prop :=
  (∀ s : State, s.phase ≠ .scanning → s.hostStarts = [] → step s = .next s) ∧
  (∀ s t : State, step s = .next t → t.phase = .done → s.phase ≠ .done →
    s.phase = .scanning ∧ t.len ≤ (t.pc : Int))

/-- R65: what `start` does outside phase Scanning, for a buffer that holds the stream and a length in
the unit's range: `len`, `pc`, `err` and the trace are set, the registers stay, and the phase is
Scanning, or Aborted with MALFORMED_EMPTY when the length is not positive. In phase Scanning the block
takes no start. -/
def Obligations.StartBeginsAPass : Prop :=
  ∀ (P : Params) (s : State),
    (s.phase ≠ .scanning → ∀ r : StartRequest, r.len ≤ (r.bytes.length : Int) → lenInRange P r.len = true →
      ∃ m, (∀ i, Memory.read m i = r.bytes[i]?) ∧
        (r.len ≤ 0 → startWith P r s =
          .next { s with len := r.len, pc := 0, err := .malformedEmpty, trace := [], phase := .aborted, mem := m }) ∧
        (0 < r.len → startWith P r s =
          .next { s with len := r.len, pc := 0, err := .none, trace := [], phase := .scanning, mem := m })) ∧
    (s.phase = .scanning → ∀ t, stepWith P s = .next t → t.hostStarts = s.hostStarts)

/-- R89: a pass that starts with a length that is not positive aborts with MALFORMED_EMPTY and `pc = 0`,
reads no byte, writes no register and leaves an empty trace. The start arrives as log entry 5 says. -/
def Obligations.EmptyStreamAborts : Prop :=
  ∀ (s : State) (r : StartRequest) (later : List StartRequest), s.phase ≠ .scanning →
    s.hostStarts = r :: later → r.len ≤ 0 →
    readIndices Params.default s = [] ∧
    ∃ t, step s = .next t ∧ t.phase = .aborted ∧ t.err = .malformedEmpty ∧ t.pc = 0 ∧
      t.regs = s.regs ∧ t.trace = [] ∧ t.len = r.len ∧ t.hostStarts = later

/-- The model's convention for the host (log entry 5): outside phase Scanning a step takes the next
start the host sends, of any length and with any buffer. -/
def Obligations.AWaitingStepTakesTheNextStart : Prop :=
  ∀ (s : State) (r : StartRequest) (later : List StartRequest), s.phase ≠ .scanning →
    s.hostStarts = r :: later → step s = startWith Params.default r { s with hostStarts := later }

/-- R42: a pass whose buffer is shorter than its length is not started. -/
def Obligations.ShortBufferIsNotStarted : Prop :=
  ∀ (s : State) (r : StartRequest) (later : List StartRequest), s.phase ≠ .scanning →
    s.hostStarts = r :: later → (r.bytes.length : Int) < r.len → step s = .refused .bufferShorterThanLen

/-- D10, D23, I12: on a unit of finite `LEN_W` or `ADDR_W`, a start is refused as `lengthOutOfRange` exactly
when its length does not fit in `LEN_W` bits of two's complement (`−2^w ≤ 2·len < 2^w`) or is not below
`2^ADDR_W − 1`, whatever its buffer holds; a short buffer is refused as such only at a length in range.
That the range is looked at before the buffer, and that the start arrives as a step, is the model's choice
(log entries 7 and 5). -/
def Obligations.LengthOutOfRangeIsRefused : Prop :=
  ∀ (P : Params) (s : State) (r : StartRequest) (later : List StartRequest),
    s.phase ≠ .scanning → s.hostStarts = r :: later →
    (stepWith P s = .refused .lengthOutOfRange ↔ LengthOutOfRange P r.len) ∧
    (stepWith P s = .refused .bufferShorterThanLen ↔
      ¬ LengthOutOfRange P r.len ∧ (r.bytes.length : Int) < r.len)

/-- R90: a move's opcode byte as the last byte of the stream aborts the pass; `pc` is the index of that
byte, and whatever the buffer holds at `pc + 1` makes no difference. -/
def Obligations.TruncatedMoveAborts : Prop :=
  ∀ (P : Params) (s : State) (b0 : Byte), s.phase = .scanning → (s.pc : Int) < s.len →
    Memory.read s.mem s.pc = some b0 → opOf b0 = P.moveOpcode → s.len ≤ (s.pc : Int) + 1 →
    (s.pc : Int) = s.len - 1 ∧
    ∀ m, Memory.read m s.pc = some b0 →
      stepWith P { s with mem := m } = .next (truncatedState { s with mem := m })

/-- R93, R95: a step of a pass that ends in Aborted changed only `phase` and `err`. -/
def Obligations.AbortsArePrecise : Prop :=
  ∀ (P : Params) (s t : State), s.phase = .scanning → stepWith P s = .next t → t.phase = .aborted →
    t = { s with phase := .aborted, err := .malformedTruncated }

/-- R69: after a step that did not abort the phase is Done exactly when the stream is exhausted, and Done
is entered with `pc = len`. -/
def Obligations.DoneExactlyWhenExhausted : Prop :=
  ∀ (P : Params) (s t : State), s.phase = .scanning → stepWith P s = .next t → t.phase ≠ .aborted →
    (t.phase = .done ∨ t.phase = .scanning) ∧ (t.phase = .done ↔ t.len ≤ (t.pc : Int)) ∧
    (t.pc : Int) ≤ t.len ∧ (t.phase = .done → (t.pc : Int) = t.len)

/-! ### Rules of the whole machine -/

/-- R18: only an executed move writes the register file. -/
def Obligations.OnlyAMoveWritesRegisters : Prop :=
  ∀ (P : Params) (s t : State), stepWith P s = .next t → t.regs ≠ s.regs →
    s.phase = .scanning ∧ (s.pc : Int) + 1 < s.len ∧
    ∃ b0, Memory.read s.mem s.pc = some b0 ∧ opOf b0 = P.moveOpcode

/-- R22, R30, R41: during a pass the buffer, the length and what the host has yet to send stay as they
are. -/
def Obligations.TheBufferIsFixedDuringAPass : Prop :=
  ∀ (P : Params) (s t : State), s.phase = .scanning → stepWith P s = .next t →
    (∀ a, Memory.read t.mem a = Memory.read s.mem a) ∧
    t.mem = s.mem ∧ t.len = s.len ∧ t.hostStarts = s.hostStarts

/-- R21: only an abort sets `err`, and only the start of a pass clears it. -/
def Obligations.ErrChangesOnlyAtAbortOrStart : Prop :=
  ∀ (P : Params) (s t : State), stepWith P s = .next t → t.err ≠ s.err →
    (s.phase = .scanning ∧ t.phase = .aborted ∧ t.err = .malformedTruncated) ∨
    (s.phase ≠ .scanning ∧ s.hostStarts ≠ [] ∧
      ((t.phase = .scanning ∧ t.err = .none) ∨ (t.phase = .aborted ∧ t.err = .malformedEmpty)))

/-- R75, R92: every instruction answers a next state, and no step raises `InvariantViolation`. That an
instruction does so outside phase Scanning, where R68 enables no step, is the model's choice (log entry 12). -/
def Obligations.NoInstructionStopsTheMachine : Prop :=
  (∀ (P : Params) (i : Instr) (s : State), ∃ t, execWith P i s = .next t) ∧
  (∀ (P : Params) (s : State), stepWith P s ≠ .fault .invariantViolation)

/-- R35, R36: in phase Scanning, at a supplied byte of the stream, a step reads `pc` alone for a skip and
for a truncated move, and `pc` and `pc + 1` for a move; every index read is inside the stream; outside
phase Scanning nothing is read (R66). -/
def Obligations.ReadsStayInTheStream : Prop :=
  ∀ (P : Params) (s : State),
    (∀ i ∈ readIndices P s, (i : Int) < s.len) ∧
    (∀ b0, s.phase = .scanning → (s.pc : Int) < s.len → Memory.read s.mem s.pc = some b0 →
      (opOf b0 ≠ P.moveOpcode ∨ s.len ≤ (s.pc : Int) + 1 → readIndices P s = [s.pc]) ∧
      (opOf b0 = P.moveOpcode → (s.pc : Int) + 1 < s.len → readIndices P s = [s.pc, s.pc + 1])) ∧
    (s.phase ≠ .scanning → readIndices P s = [])

/-- R36, R68: a step of a pass depends on no byte of the buffer but those it reads. -/
def Obligations.UnreadBytesMakeNoDifference : Prop :=
  ∀ (P : Params) (s : State) (m : Memory), s.phase = .scanning →
    (∀ i ∈ readIndices P s, Memory.read m i = Memory.read s.mem i) →
    stepWith P { s with mem := m } = onNext (fun t => { t with mem := m }) (stepWith P s)

/-! ### Reset and invariants -/

/-- R26, R103: construction, for every value of the parameter `INIT_REGS`. -/
def Obligations.ConstructionState : Prop :=
  ∀ init : RegFile,
    (State.construct init).regs = init ∧ (State.construct init).pc = 0 ∧
    (State.construct init).phase = .idle ∧ (State.construct init).err = .none ∧
    (State.construct init).len = 0 ∧ (State.construct init).trace = []

/-- The invariants of R72 hold at construction, for every `INIT_REGS` and every parameter, and so at
reset (whose register values are log entry 3). -/
def Obligations.ConstructionMeetsTheInvariants : Prop :=
  ∀ P : Params, (∀ init : RegFile, Inv P (State.construct init)) ∧ Inv P State.reset

/-- The invariants of R72 are kept by every step, of the machine at any parameters and of `step`. -/
def Obligations.StepKeepsTheInvariants : Prop :=
  (∀ (P : Params) (s t : State), Inv P s → stepWith P s = .next t → Inv P t) ∧
  (∀ s t : State, Inv Params.default s → step s = .next t → Inv Params.default t)

/-- R75: where the invariants hold, no step of a pass faults or is refused. -/
def Obligations.AStepOfAPassAlwaysGoesOn : Prop :=
  ∀ (P : Params) (s : State), Inv P s → s.phase = .scanning → ∃ t, stepWith P s = .next t

/-- R71: every pass ends: from a state of a pass within `len − pc` steps, and from its start within
`max(len, 0)` steps. -/
def Obligations.EveryPassEnds : Prop :=
  ∀ P : Params,
    (∀ s : State, Inv P s → s.phase = .scanning →
      ∃ (k : Nat) (t : State), (k : Int) ≤ s.len - s.pc ∧ (coreWith P).run k s = .next t ∧ passEnded t = true) ∧
    (∀ (r : StartRequest) (s t0 : State), startWith P r s = .next t0 →
      ∃ (k : Nat) (t : State), (k : Int) ≤ max r.len 0 ∧ (coreWith P).run k t0 = .next t ∧ passEnded t = true)

/-- R71, R74, R91: a pass of positive length, run to its end, leaves exactly what the source's loop makes
of the stream: the registers, the trace in order, the cursor, the phase and the cause; it takes one
step for each skip, each move and the abort, and a pass of `n` skips and `m` moves that reaches Done
has `len = n + 2m`. -/
def Obligations.APassIsTheLoopOverItsStream : Prop :=
  ∀ (P : Params) (r : StartRequest) (s t0 : State) (e : StreamEnd),
    startWith P r s = .next t0 → 0 < r.len → e = runStream P (r.bytes.take r.len.toNat) s.regs →
    ∃ t : State, (coreWith P).run e.steps t0 = .next t ∧
      t.regs = e.regs ∧ t.trace = e.trace ∧ t.pc = e.skips + 2 * e.moves ∧
      t.phase = (if e.truncated then .aborted else .done) ∧
      t.err = (if e.truncated then .malformedTruncated else .none) ∧
      (e.truncated = false → r.len = e.skips + 2 * e.moves)

/-- D23: on a unit of finite `ADDR_W`, a pass that was started never needs an index the cursor's width
cannot hold. -/
def Obligations.AcceptedLengthFitsTheCursor : Prop :=
  ∀ (P : Params) (w : Nat) (r : StartRequest) (s t0 t : State) (k : Nat), P.addrW = some w →
    startWith P r s = .next t0 → (coreWith P).run k t0 = .next t → t.phase = .scanning →
    (t.pc : Int) + 2 < 2 ^ w

/-! ### Outputs -/

/-- R25: the snapshot's records, whatever the free draws: names and order, full values, and the two
halves of the general-purpose registers; reading it changes nothing but the draw number. -/
def Obligations.SnapshotReportsTheRegisters : Prop :=
  ∀ s : State,
    (readSnapshot s).1.map (·.name) = ["a", "b", "c", "d", "sp", "bp", "si", "di"] ∧
    (readSnapshot s).1.map (·.full) =
      [s.regs.a, s.regs.b, s.regs.c, s.regs.d, s.regs.sp, s.regs.bp, s.regs.si, s.regs.di] ∧
    ((readSnapshot s).1.take 4).map (fun r => r.high ++ r.low) = [s.regs.a, s.regs.b, s.regs.c, s.regs.d] ∧
    (∃ n, (readSnapshot s).2 = { s with draws := n })

/-- R61 to R63, R73, R82: a record's text is `mov`, the destination's text, a comma and the source's text,
with the names and markers of R62's table; an executed move adds one record and that record's text, which
is the instruction's own; a skip and an abort add none. That `exec` does so outside phase Scanning too is
log entry 12. -/
def Obligations.TheTextOutputGainsTheMovesLine : Prop :=
  ∃ (name : RegId → String) (suffix : Section → String),
    (name .a = "a" ∧ name .b = "b" ∧ name .c = "c" ∧ name .d = "d" ∧
      name .sp = "sp" ∧ name .bp = "bp" ∧ name .si = "si" ∧ name .di = "di") ∧
    (suffix .x16 = "x" ∧ suffix .l8 = "l" ∧ suffix .h8 = "h" ∧ suffix .p16 = "") ∧
    (∀ dst src : OperandRef, render ⟨dst, src⟩ =
      "mov " ++ (name dst.reg ++ suffix dst.sec) ++ ", " ++ (name src.reg ++ suffix src.sec)) ∧
    (∀ (i : Instr) (s t : State), exec i s = .next t →
      (∀ dst, destinationOf i = some dst → (s.pc : Int) + 1 < s.len →
        ∃ src : OperandRef, t.trace = s.trace ++ [⟨dst, src⟩] ∧
          traceText t = traceText s ++
            ["mov " ++ (name dst.reg ++ suffix dst.sec) ++ ", " ++ (name src.reg ++ suffix src.sec)] ∧
          instrTextWith Params.default i = some (render ⟨dst, src⟩)) ∧
      (destinationOf i = none → traceText t = traceText s ∧ instrTextWith Params.default i = none) ∧
      (s.phase = .scanning → t.phase = .aborted → traceText t = traceText s))

/-- R20, R21, R64, R74: the status outputs report the code of every phase and of every cause, and the
cursor. -/
def Obligations.StatusOutputsReportPhaseErrAndCursor : Prop :=
  ∀ s : State,
    (statusOutputs s).pc = s.pc ∧
    ((s.phase = .idle → (statusOutputs s).phase = 0#2) ∧
      (s.phase = .scanning → (statusOutputs s).phase = 1#2) ∧
      (s.phase = .done → (statusOutputs s).phase = 2#2) ∧
      (s.phase = .aborted → (statusOutputs s).phase = 3#2)) ∧
    ((s.err = .none → (statusOutputs s).err = 0#2) ∧
      (s.err = .malformedEmpty → (statusOutputs s).err = 1#2) ∧
      (s.err = .malformedTruncated → (statusOutputs s).err = 2#2) ∧
      (s.err = .invariant → (statusOutputs s).err = 3#2))
end

