-- ==== Sys2Proof/Laws/Decode.lean ====
section
/-! SUPPORT. The fields of an encoded byte read back, and a byte is put together from its fields. -/

namespace Sys2Proof

section
variable (op : BitVec 6) (d w : BitVec 1) (mod : BitVec 2) (reg rm : BitVec 3)

@[simp] theorem opOf_byte0 : opOf (byte0 op d w) = op := by
  ext i hi; simp [opOf, byte0]; grind
@[simp] theorem dOf_byte0 : dOf (byte0 op d w) = d := by
  ext i hi; simp [dOf, byte0]; grind
@[simp] theorem wOf_byte0 : wOf (byte0 op d w) = w := by
  ext i hi; simp [wOf, byte0]; grind
@[simp] theorem selOf_byte0 : selOf (byte0 op d w) = d ++ w := by
  ext i hi; simp [selOf, byte0]; grind
@[simp] theorem modOf_byte1 : modOf (byte1 mod reg rm) = mod := by
  ext i hi; simp [modOf, byte1]; grind
@[simp] theorem regOf_byte1 : regOf (byte1 mod reg rm) = reg := by
  ext i hi; simp [regOf, byte1]; grind
@[simp] theorem rmOf_byte1 : rmOf (byte1 mod reg rm) = rm := by
  ext i hi; simp [rmOf, byte1]; grind
end

@[simp] theorem byte0_fields (b0 : Byte) : byte0 (opOf b0) (dOf b0) (wOf b0) = b0 := by
  ext i hi; simp [opOf, dOf, wOf, byte0]; grind

@[simp] theorem byte1_fields (b1 : Byte) : byte1 (modOf b1) (regOf b1) (rmOf b1) = b1 := by
  ext i hi; simp [modOf, regOf, rmOf, byte1]; grind

/-- R46: `sel = {d, w}`. -/
theorem selOf_eq_append (b0 : Byte) : selOf b0 = dOf b0 ++ wOf b0 := by
  ext i hi; simp [selOf, dOf, wOf]; grind

/-- A bit is 0 or 1. -/
theorem bit_cases (v : BitVec 1) : v = 0#1 ∨ v = 1#1 := by
  revert v; decide

end Sys2Proof
end

