-- ==== Sys2Proof/Laws/State.lean ====
section
/-! SUPPORT. One lemma for each field of `State` under each update, so that no proof unfolds an update. -/

namespace Sys2Proof.Machine

variable (s : State)

@[simp] theorem emit_regs (t : TraceRecord) : (s.emit t).regs = s.regs := rfl
@[simp] theorem emit_pc (t : TraceRecord) : (s.emit t).pc = s.pc := rfl
@[simp] theorem emit_phase (t : TraceRecord) : (s.emit t).phase = s.phase := rfl
@[simp] theorem emit_err (t : TraceRecord) : (s.emit t).err = s.err := rfl
@[simp] theorem emit_len (t : TraceRecord) : (s.emit t).len = s.len := rfl
@[simp] theorem emit_mem (t : TraceRecord) : (s.emit t).mem = s.mem := rfl
@[simp] theorem emit_trace (t : TraceRecord) : (s.emit t).trace = s.trace ++ [t] := rfl
@[simp] theorem emit_hostStarts (t : TraceRecord) : (s.emit t).hostStarts = s.hostStarts := rfl
@[simp] theorem emit_draws (t : TraceRecord) : (s.emit t).draws = s.draws := rfl

@[simp] theorem withRegs_regs (x : RegFile) : (s.withRegs x).regs = x := rfl
@[simp] theorem withRegs_pc (x : RegFile) : (s.withRegs x).pc = s.pc := rfl
@[simp] theorem withRegs_phase (x : RegFile) : (s.withRegs x).phase = s.phase := rfl
@[simp] theorem withRegs_err (x : RegFile) : (s.withRegs x).err = s.err := rfl
@[simp] theorem withRegs_len (x : RegFile) : (s.withRegs x).len = s.len := rfl
@[simp] theorem withRegs_mem (x : RegFile) : (s.withRegs x).mem = s.mem := rfl
@[simp] theorem withRegs_trace (x : RegFile) : (s.withRegs x).trace = s.trace := rfl
@[simp] theorem withRegs_hostStarts (x : RegFile) : (s.withRegs x).hostStarts = s.hostStarts := rfl
@[simp] theorem withRegs_draws (x : RegFile) : (s.withRegs x).draws = s.draws := rfl

@[simp] theorem advance_regs (n : Nat) : (s.advance n).regs = s.regs := rfl
@[simp] theorem advance_pc (n : Nat) : (s.advance n).pc = s.pc + n := rfl
@[simp] theorem advance_phase (n : Nat) : (s.advance n).phase = s.phase := rfl
@[simp] theorem advance_err (n : Nat) : (s.advance n).err = s.err := rfl
@[simp] theorem advance_len (n : Nat) : (s.advance n).len = s.len := rfl
@[simp] theorem advance_mem (n : Nat) : (s.advance n).mem = s.mem := rfl
@[simp] theorem advance_trace (n : Nat) : (s.advance n).trace = s.trace := rfl
@[simp] theorem advance_hostStarts (n : Nat) : (s.advance n).hostStarts = s.hostStarts := rfl
@[simp] theorem advance_draws (n : Nat) : (s.advance n).draws = s.draws := rfl

@[simp] theorem raiseMalformed_regs (c : MalformedCause) : (raiseMalformed c s).regs = s.regs := rfl
@[simp] theorem raiseMalformed_pc (c : MalformedCause) : (raiseMalformed c s).pc = s.pc := rfl
@[simp] theorem raiseMalformed_phase (c : MalformedCause) : (raiseMalformed c s).phase = .aborted := rfl
@[simp] theorem raiseMalformed_err (c : MalformedCause) : (raiseMalformed c s).err = c.code := rfl
@[simp] theorem raiseMalformed_len (c : MalformedCause) : (raiseMalformed c s).len = s.len := rfl
@[simp] theorem raiseMalformed_mem (c : MalformedCause) : (raiseMalformed c s).mem = s.mem := rfl
@[simp] theorem raiseMalformed_trace (c : MalformedCause) : (raiseMalformed c s).trace = s.trace := rfl
@[simp] theorem raiseMalformed_hostStarts (c : MalformedCause) : (raiseMalformed c s).hostStarts = s.hostStarts := rfl
@[simp] theorem raiseMalformed_draws (c : MalformedCause) : (raiseMalformed c s).draws = s.draws := rfl

@[simp] theorem loadPass_regs (r : StartRequest) : (loadPass r s).regs = s.regs := rfl
@[simp] theorem loadPass_pc (r : StartRequest) : (loadPass r s).pc = 0 := rfl
@[simp] theorem loadPass_phase (r : StartRequest) : (loadPass r s).phase = s.phase := rfl
@[simp] theorem loadPass_err (r : StartRequest) : (loadPass r s).err = .none := rfl
@[simp] theorem loadPass_len (r : StartRequest) : (loadPass r s).len = r.len := rfl
@[simp] theorem loadPass_mem (r : StartRequest) : (loadPass r s).mem = Memory.ofBytes 0 r.bytes := rfl
@[simp] theorem loadPass_trace (r : StartRequest) : (loadPass r s).trace = [] := rfl
@[simp] theorem loadPass_hostStarts (r : StartRequest) : (loadPass r s).hostStarts = s.hostStarts := rfl
@[simp] theorem loadPass_draws (r : StartRequest) : (loadPass r s).draws = s.draws := rfl

@[simp] theorem send_regs (r : StartRequest) : (s.send r).regs = s.regs := rfl
@[simp] theorem send_pc (r : StartRequest) : (s.send r).pc = s.pc := rfl
@[simp] theorem send_phase (r : StartRequest) : (s.send r).phase = s.phase := rfl
@[simp] theorem send_err (r : StartRequest) : (s.send r).err = s.err := rfl
@[simp] theorem send_len (r : StartRequest) : (s.send r).len = s.len := rfl
@[simp] theorem send_mem (r : StartRequest) : (s.send r).mem = s.mem := rfl
@[simp] theorem send_trace (r : StartRequest) : (s.send r).trace = s.trace := rfl
@[simp] theorem send_hostStarts (r : StartRequest) : (s.send r).hostStarts = s.hostStarts ++ [r] := rfl
@[simp] theorem send_draws (r : StartRequest) : (s.send r).draws = s.draws := rfl

@[simp] theorem finish_regs : s.finish.regs = s.regs := by
  unfold State.finish; split <;> rfl
@[simp] theorem finish_pc : s.finish.pc = s.pc := by
  unfold State.finish; split <;> rfl
@[simp] theorem finish_phase :
    s.finish.phase = if s.phase = .scanning ∧ s.len ≤ (s.pc : Int) then .done else s.phase := by
  unfold State.finish; split <;> rfl
@[simp] theorem finish_err : s.finish.err = s.err := by
  unfold State.finish; split <;> rfl
@[simp] theorem finish_len : s.finish.len = s.len := by
  unfold State.finish; split <;> rfl
@[simp] theorem finish_mem : s.finish.mem = s.mem := by
  unfold State.finish; split <;> rfl
@[simp] theorem finish_trace : s.finish.trace = s.trace := by
  unfold State.finish; split <;> rfl
@[simp] theorem finish_hostStarts : s.finish.hostStarts = s.hostStarts := by
  unfold State.finish; split <;> rfl
@[simp] theorem finish_draws : s.finish.draws = s.draws := by
  unfold State.finish; split <;> rfl

end Sys2Proof.Machine
end

