-- ==== Sys2Proof/Laws/Ops.lean ====
section
/-! SUPPORT. What the operations on registers and on the stream buffer do: reading back what was
written, leaving the rest alone, and keeping the buffer's canonical form. -/

namespace Sys2Proof.Machine

/-! ### Registers -/

@[simp] theorem get_set_same (x : RegFile) (r : RegId) (v : Word) : (x.set r v).get r = v := by
  cases r <;> rfl

theorem get_set_other (x : RegFile) {r q : RegId} (v : Word) (h : q ≠ r) :
    (x.set r v).get q = x.get q := by
  cases r <;> cases q <;> first | rfl | exact absurd rfl h

@[simp] theorem set_get_self (x : RegFile) (r : RegId) : x.set r (x.get r) = x := by
  cases r <;> rfl

/-- Two register files with the same registers are the same. -/
theorem regFile_ext {x y : RegFile} (h : ∀ r, x.get r = y.get r) : x = y := by
  cases x; cases y
  simp only [RegFile.mk.injEq]
  exact ⟨h .a, h .b, h .c, h .d, h .sp, h .bp, h .si, h .di⟩

@[simp] theorem lowByte_joinBytes (h l : Byte) : lowByte (joinBytes h l) = l := by
  ext i hi; simp [lowByte, joinBytes]; grind

@[simp] theorem highByte_joinBytes (h l : Byte) : highByte (joinBytes h l) = h := by
  ext i hi; simp [highByte, joinBytes]; grind

@[simp] theorem joinBytes_halves (v : Word) : joinBytes (highByte v) (lowByte v) = v := by
  ext i hi; simp [highByte, lowByte, joinBytes]; grind

@[simp] theorem get_setLow_same (x : RegFile) (r : RegId) (v : Byte) :
    (x.setLow r v).get r = joinBytes (highByte (x.get r)) v := by simp [RegFile.setLow]

@[simp] theorem get_setHigh_same (x : RegFile) (r : RegId) (v : Byte) :
    (x.setHigh r v).get r = joinBytes v (lowByte (x.get r)) := by simp [RegFile.setHigh]

theorem get_setLow_other (x : RegFile) {r q : RegId} (v : Byte) (h : q ≠ r) :
    (x.setLow r v).get q = x.get q := get_set_other x _ h

theorem get_setHigh_other (x : RegFile) {r q : RegId} (v : Byte) (h : q ≠ r) :
    (x.setHigh r v).get q = x.get q := get_set_other x _ h

/-! ### The stream buffer -/

theorem memory_wf_cons (c : Host.Cell) (m : Memory) :
    Memory.wf (c :: m) = true ↔ (∀ e ∈ m, c.1 < e.1) ∧ Memory.wf m = true := by
  simp [Memory.wf, List.pairwise_cons]

theorem read_write (m : Memory) (i j : Nat) (v : Byte) (h : Memory.wf m = true) :
    Memory.read (Memory.write m i v) j = if j = i then some v else Memory.read m j := by
  induction m with
  | nil => simp [Memory.write, Memory.read, eq_comm]
  | cons c m ih =>
    obtain ⟨a, b⟩ := c
    obtain ⟨hlt, hm⟩ := (memory_wf_cons _ _).1 h
    have ih := ih hm
    simp only [Memory.write]
    split
    · simp only [Memory.read, eq_comm]
    · split
      · subst_vars; simp only [Memory.read, eq_comm]; grind
      · simp only [Memory.read, ih]; grind

theorem mem_write {m : Memory} {i : Nat} {v : Byte} {e : Host.Cell}
    (h : e ∈ Memory.write m i v) : e = (i, v) ∨ e ∈ m := by
  induction m with
  | nil => simpa [Memory.write] using h
  | cons c m ih =>
    obtain ⟨a, b⟩ := c
    simp only [Memory.write] at h
    split at h
    · simpa using h
    · split at h
      · simp only [List.mem_cons] at h ⊢; tauto
      · simp only [List.mem_cons] at h ⊢; tauto

/-- A write keeps the canonical form. -/
theorem write_wf (m : Memory) (i : Nat) (v : Byte) (h : Memory.wf m = true) :
    Memory.wf (Memory.write m i v) = true := by
  induction m with
  | nil => simp [Memory.write, Memory.wf]
  | cons c m ih =>
    obtain ⟨a, b⟩ := c
    obtain ⟨hlt, hm⟩ := (memory_wf_cons _ _).1 h
    simp only [Memory.write]
    split
    · refine (memory_wf_cons _ _).2 ⟨?_, h⟩
      intro e he
      rcases List.mem_cons.1 he with rfl | he
      · assumption
      · have := hlt e he; simp only at this ⊢; omega
    · split
      · subst_vars; exact (memory_wf_cons _ _).2 ⟨hlt, hm⟩
      · refine (memory_wf_cons _ _).2 ⟨?_, ih hm⟩
        intro e he
        rcases mem_write he with rfl | he
        · simp only; omega
        · exact hlt e he

theorem ofBytes_index {start : Nat} {bytes : List Byte} {e : Host.Cell}
    (h : e ∈ Memory.ofBytes start bytes) : start ≤ e.1 := by
  induction bytes generalizing start with
  | nil => simp [Memory.ofBytes] at h
  | cons b bytes ih =>
    rcases List.mem_cons.1 h with rfl | h
    · exact Nat.le_refl _
    · have := ih h; omega

/-- A supplied buffer is in canonical form. -/
theorem ofBytes_wf (start : Nat) (bytes : List Byte) :
    Memory.wf (Memory.ofBytes start bytes) = true := by
  induction bytes generalizing start with
  | nil => rfl
  | cons b bytes ih =>
    refine (memory_wf_cons _ _).2 ⟨fun e he => ?_, ih _⟩
    have := ofBytes_index he
    simp only; omega

/-- A supplied buffer reads as the bytes it was made of. -/
theorem read_ofBytes (start : Nat) (bytes : List Byte) (i : Nat) :
    Memory.read (Memory.ofBytes start bytes) (start + i) = bytes[i]? := by
  induction bytes generalizing start i with
  | nil => simp [Memory.ofBytes, Memory.read]
  | cons b bytes ih =>
    cases i with
    | zero => simp [Memory.ofBytes, Memory.read]
    | succ i =>
      have := ih (start + 1) i
      rw [show start + (i + 1) = start + 1 + i by omega]
      simp only [Memory.ofBytes, Memory.read, List.getElem?_cons_succ, this]
      split
      · omega
      · rfl

@[simp] theorem read_ofBytes_zero (bytes : List Byte) (i : Nat) :
    Memory.read (Memory.ofBytes 0 bytes) i = bytes[i]? := by
  simpa using read_ofBytes 0 bytes i

/-- Everything `MemRead` can answer (R28, R36, R42). -/
theorem memRead_byte {s : State} {i : Nat} {b : Byte} :
    memRead s i = .byte b ↔ (i : Int) < s.len ∧ Memory.read s.mem i = some b := by
  unfold memRead
  split <;> [skip; simp [*]]
  cases Memory.read s.mem i <;> simp [*]

theorem memRead_outside {s : State} {i : Nat} :
    memRead s i = .outsideStream ↔ s.len ≤ (i : Int) := by
  unfold memRead
  split
  · cases Memory.read s.mem i <;> simp <;> omega
  · simp; omega

theorem memRead_notSupplied {s : State} {i : Nat} :
    memRead s i = .notSupplied ↔ (i : Int) < s.len ∧ Memory.read s.mem i = none := by
  unfold memRead
  split <;> [skip; simp [*]]
  cases Memory.read s.mem i <;> simp [*]

/-! ### The start of a pass -/

/-- Everything the start of a pass can do when it answers a next state (R65, R42, D23). -/
theorem startWith_next {P : Params} {r : StartRequest} {s t : State} (h : startWith P r s = .next t) :
    lenInRange P r.len = true ∧ r.len ≤ (r.bytes.length : Int) ∧
    ((r.len ≤ 0 ∧ t = raiseMalformed .empty (loadPass r s)) ∨
     (0 < r.len ∧ t = { loadPass r s with phase := .scanning })) := by
  unfold startWith at h
  split at h
  · cases h
  · split at h
    · cases h
    · split at h <;> cases h
      · exact ⟨by simp_all, by omega, .inl ⟨by assumption, rfl⟩⟩
      · exact ⟨by simp_all, by omega, .inr ⟨by omega, rfl⟩⟩

/-- Everything the start of a pass can be refused for (R42, D23), in the order of entry 7. -/
theorem startWith_refused {P : Params} {r : StartRequest} {s : State} {e : Refusal}
    (h : startWith P r s = .refused e) :
    (lenInRange P r.len = false ∧ e = .lengthOutOfRange) ∨
    (lenInRange P r.len = true ∧ (r.bytes.length : Int) < r.len ∧ e = .bufferShorterThanLen) := by
  unfold startWith at h
  split at h
  · cases h; exact .inl ⟨by simp_all, rfl⟩
  · split at h
    · cases h; exact .inr ⟨by simp_all, by assumption, rfl⟩
    · split at h <;> cases h

/-- At unbounded widths every length is in range (D10, D11). -/
@[simp] theorem lenInRange_default (len : Int) : lenInRange Params.default len = true := rfl

end Sys2Proof.Machine
end

