-- ==== Sys2Proof/Laws/Operands.lean ====
section
/-! SUPPORT. The width of a resolved operand, and everything a section write and a transfer can do. -/

namespace Sys2Proof.Machine

/-- The section's width follows `w = sel[0]` alone (R50, R51). -/
theorem resolveWith_isByte (P : Params) (sel : BitVec 2) (idx : BitVec 3) :
    (resolveWith P sel idx).sec.isByte = !sel[0] := by
  unfold resolveWith
  cases sel[0] <;> cases idx[2] <;> rfl

/-- Both operands of a move have the width `w` selects (R55). -/
theorem operandsWith_isByte (P : Params) (sel : BitVec 2) (reg rm : BitVec 3) :
    (operandsWith P sel reg rm).dst.sec.isByte = (!sel[0]) ∧
    (operandsWith P sel reg rm).src.sec.isByte = (!sel[0]) := by
  unfold operandsWith
  split <;> simp [resolveWith_isByte]

/-- A transfer between operands of one width always has a value (R77, R92). -/
theorem transfer_isSome (x : RegFile) {dst src : OperandRef} (h : dst.sec.isByte = src.sec.isByte) :
    ∃ y, transfer x dst src = some y := by
  obtain ⟨rd, sd⟩ := dst
  obtain ⟨rs, ss⟩ := src
  cases sd <;> cases ss <;> first | exact ⟨_, rfl⟩ | cases h

/-- A transfer writes the destination's register and no other (R16, R77). -/
theorem transfer_other {x y : RegFile} {dst src : OperandRef} (h : transfer x dst src = some y)
    {q : RegId} (hq : q ≠ dst.reg) : y.get q = x.get q := by
  obtain ⟨rd, sd⟩ := dst
  obtain ⟨rs, ss⟩ := src
  cases sd <;> cases ss <;>
    simp [transfer, secWrite, secRead, Section.isByte] at h <;> subst h <;>
    simp [RegFile.setLow, RegFile.setHigh, get_set_other _ _ hq]

end Sys2Proof.Machine
end

