-- ==== Sys2Proof/Laws/Dispatcher.lean ====
section
/-! SUPPORT. Everything a move, a fetch and a step can do, said once. -/

namespace Sys2Proof.Machine

/-- The state a completed move leaves (R76). -/
def moved (s : State) (t : TraceRecord) (x : RegFile) : State :=
  (((s.emit t).withRegs x).advance 2).finish

/-- In phase Scanning a completed move leaves the state R68 writes out. -/
theorem moved_eq {s : State} (hs : s.phase = .scanning) (t : TraceRecord) (x : RegFile) :
    moved s t x = movedState s t.dst t.src x := by
  unfold moved movedState State.finish
  split <;> simp_all [State.emit, State.withRegs, State.advance]

/-- In phase Scanning a skip leaves the state R85 writes out. -/
theorem skip_eq {s : State} (hs : s.phase = .scanning) : (s.advance 1).finish = skippedState s := by
  unfold skippedState State.finish
  split <;> simp_all [State.advance]

/-- R90: with no second byte in the stream, a move of any form aborts. -/
theorem moveWith_truncated (P : Params) (sel : BitVec 2) (reg rm : BitVec 3) {s : State}
    (h : s.len ≤ (s.pc : Int) + 1) : moveWith P sel reg rm s = .next (raiseMalformed .truncated s) := by
  simp [moveWith, h]

/-- R76: with its second byte in the stream, a move of any form completes. -/
theorem moveWith_completes (P : Params) (sel : BitVec 2) (reg rm : BitVec 3) {s : State}
    (h : (s.pc : Int) + 1 < s.len) :
    ∃ x, transfer s.regs (operandsWith P sel reg rm).dst (operandsWith P sel reg rm).src = some x ∧
      moveWith P sel reg rm s = .next (moved s (operandsWith P sel reg rm) x) := by
  obtain ⟨hd, hs⟩ := operandsWith_isByte P sel reg rm
  obtain ⟨x, hx⟩ := transfer_isSome s.regs (hd.trans hs.symm)
  have h' : ¬ s.len ≤ (s.pc : Int) + 1 := by omega
  exact ⟨x, hx, by simp [moveWith, h', hx, moved]⟩

/-- The selector and the two fields of a move instruction. -/
def moveFields : Instr → Option (BitVec 2 × BitVec 3 × BitVec 3)
  | .movRm8Reg8 _ reg rm => some (0b00#2, reg, rm)
  | .movRm16Reg16 _ reg rm => some (0b01#2, reg, rm)
  | .movReg8Rm8 _ reg rm => some (0b10#2, reg, rm)
  | .movReg16Rm16 _ reg rm => some (0b11#2, reg, rm)
  | .skip _ _ _ => none

/-- Every instruction's effect, by its shape: a move is `moveWith` of its fields, a skip advances. -/
theorem execWith_eq (P : Params) (i : Instr) (s : State) :
    execWith P i s =
      match moveFields i with
      | some (sel, reg, rm) => moveWith P sel reg rm s
      | none => .next (s.advance 1).finish := by
  cases i <;> rfl

/-- The destination section of an instruction is its operands' destination (R54). -/
theorem destinationOf_eq (i : Instr) :
    destinationOf i =
      (moveFields i).map fun f => (operandsWith Params.default f.1 f.2.1 f.2.2).dst := by
  cases i <;> simp [destinationOf, moveFields, operandsWith, resolve]

/-- The text of an instruction is its operands' record, rendered (R82); a skip has none (R63). -/
theorem instrTextWith_eq (P : Params) (i : Instr) :
    instrTextWith P i = (moveFields i).map fun f => render (operandsWith P f.1 f.2.1 f.2.2) := by
  cases i <;> rfl

/-- The decoder's move has the fields its bytes hold. -/
theorem moveFields_moveOf (b0 b1 : Byte) :
    moveFields (moveOf b0 b1) = some (selOf b0, regOf b1, rmOf b1) := by
  unfold moveOf
  rw [selOf_eq_append]
  rcases bit_cases (dOf b0) with hd | hd <;> rcases bit_cases (wOf b0) with hw | hw <;>
    simp [hd, hw, moveFields]

/-- `exec` is the parametric effect at the defaults. -/
theorem exec_eq_execWith (i : Instr) (s : State) : exec i s = execWith Params.default i s := by
  cases i <;> rfl

/-- `step` is the parametric step at the defaults. -/
theorem step_eq_stepWith (s : State) : step s = stepWith Params.default s := by
  unfold step stepWith
  rw [show exec = execWith Params.default from funext fun i => funext (exec_eq_execWith i)]

/-- The machine behind the interface is the parametric machine at the defaults. -/
theorem core_eq_coreWith : core = coreWith Params.default := by
  unfold core coreWith
  rw [show step = stepWith Params.default from funext step_eq_stepWith]

/-- A run goes on from the next state of its first step. -/
theorem run_succ (P : Params) (k : Nat) {s t : State} (h : stepWith P s = .next t) :
    (coreWith P).run (k + 1) s = (coreWith P).run k t := by
  have h' : (coreWith P).step s = .next t := h
  simp [Host.Core.run, h']

/-- A run that answers a next state began with a step that did. -/
theorem run_succ_next (P : Params) (k : Nat) {s u : State} (h : (coreWith P).run (k + 1) s = .next u) :
    ∃ t : State, stepWith P s = .next t ∧ (coreWith P).run k t = .next u := by
  cases hs : stepWith P s with
  | next t => exact ⟨t, rfl, by rwa [run_succ P k hs] at h⟩
  | fault r =>
    have h' : (coreWith P).step s = .fault r := hs
    simp [Host.Core.run, h'] at h
  | refused r =>
    have h' : (coreWith P).step s = .refused r := hs
    simp [Host.Core.run, h'] at h

/-- Everything a fetch can answer in a state whose cursor is on a supplied byte (R67, R68). -/
theorem fetchWith_byte (P : Params) {s : State} {b0 : Byte} (h : memRead s s.pc = .byte b0) :
    (isMoveByte P b0 = false ∧ fetchWith P s = .instr (skipOf b0)) ∨
    (isMoveByte P b0 = true ∧ s.len ≤ (s.pc : Int) + 1 ∧ fetchWith P s = .truncatedMove) ∨
    (isMoveByte P b0 = true ∧ (s.pc : Int) + 1 < s.len ∧
      ((∃ b1, Memory.read s.mem (s.pc + 1) = some b1 ∧ fetchWith P s = .instr (moveOf b0 b1)) ∨
       (Memory.read s.mem (s.pc + 1) = none ∧ fetchWith P s = .notSupplied))) := by
  unfold fetchWith
  rw [h]
  cases hm : isMoveByte P b0 with
  | false => exact .inl ⟨rfl, by simp [hm]⟩
  | true =>
    refine .inr ?_
    by_cases hl : s.len ≤ (s.pc : Int) + 1
    · exact .inl ⟨rfl, hl, by simp [hm, hl]⟩
    · refine .inr ⟨rfl, by omega, ?_⟩
      have hlt : ((s.pc + 1 : Nat) : Int) < s.len := by omega
      cases hr : Memory.read s.mem (s.pc + 1) with
      | none => exact .inr ⟨rfl, by simp [hm, hl, memRead_notSupplied.2 ⟨hlt, hr⟩]⟩
      | some b1 => exact .inl ⟨b1, rfl, by simp [hm, hl, memRead_byte.2 ⟨hlt, hr⟩]⟩

/-- Everything a step in phase Scanning can do when it answers a next state (R68): a skip, a truncated
move, or a completed move. -/
theorem stepWith_scanning {P : Params} {s t : State} (hs : s.phase = .scanning)
    (h : stepWith P s = .next t) :
    ∃ b0, (s.pc : Int) < s.len ∧ Memory.read s.mem s.pc = some b0 ∧
      ((isMoveByte P b0 = false ∧ t = (s.advance 1).finish) ∨
       (isMoveByte P b0 = true ∧ s.len ≤ (s.pc : Int) + 1 ∧ t = raiseMalformed .truncated s) ∨
       (isMoveByte P b0 = true ∧ (s.pc : Int) + 1 < s.len ∧
         ∃ b1 x, Memory.read s.mem (s.pc + 1) = some b1 ∧
           transfer s.regs (operandsWith P (selOf b0) (regOf b1) (rmOf b1)).dst
             (operandsWith P (selOf b0) (regOf b1) (rmOf b1)).src = some x ∧
           t = moved s (operandsWith P (selOf b0) (regOf b1) (rmOf b1)) x)) := by
  simp only [stepWith, stepBy, hs] at h
  cases hr : memRead s s.pc with
  | outsideStream => simp [fetchWith, hr] at h
  | notSupplied => simp [fetchWith, hr] at h
  | byte b0 =>
    obtain ⟨hlt, hb⟩ := memRead_byte.1 hr
    refine ⟨b0, hlt, hb, ?_⟩
    rcases fetchWith_byte P hr with ⟨hm, hf⟩ | ⟨hm, hl, hf⟩ | ⟨hm, hl, ⟨b1, hb1, hf⟩ | ⟨-, hf⟩⟩ <;>
      rw [hf] at h
    · exact .inl ⟨hm, by simpa [execWith, skipOf, execSkip] using h.symm⟩
    · exact .inr (.inl ⟨hm, hl, by simpa using h.symm⟩)
    · obtain ⟨x, hx, hmv⟩ := moveWith_completes P (selOf b0) (regOf b1) (rmOf b1) hl
      refine .inr (.inr ⟨hm, hl, b1, x, hb1, hx, ?_⟩)
      simp only [execWith_eq, moveFields_moveOf, hmv] at h
      simpa using h.symm
    · simp at h

/-- Everything a step outside phase Scanning can do when it answers a next state (R65, R66). -/
theorem stepWith_waiting {P : Params} {s t : State} (hs : s.phase ≠ .scanning)
    (h : stepWith P s = .next t) :
    (s.hostStarts = [] ∧ t = s) ∨
    (∃ r later, s.hostStarts = r :: later ∧ startWith P r { s with hostStarts := later } = .next t) := by
  have ha : awaitStart P s = .next t := by
    revert h; unfold stepWith stepBy; cases hp : s.phase <;> simp_all
  unfold awaitStart at ha
  cases hh : s.hostStarts with
  | nil => rw [hh] at ha; simp at ha; exact .inl ⟨rfl, ha.symm⟩
  | cons r later => rw [hh] at ha; exact .inr ⟨r, later, rfl, ha⟩

end Sys2Proof.Machine
end

