-- ==== Sys2Proof/Laws/PerInstr.lean ====
section
/-! SUPPORT. A statement about every instruction as syntax, one lemma for each constructor. -/

namespace Sys2Proof.Laws.EncodedLength

/-- R43: the encoding of a well-formed instruction is as long as its first byte says, whatever the
parameters. -/
def Statement (i : Instr) : Prop :=
  ∀ P : Params, i.wf P = true →
    ∃ b0 rest, encodeWith P i = b0 :: rest ∧ (encodeWith P i).length = instrLength P b0

theorem movRm8Reg8 (mod : BitVec 2) (reg rm : BitVec 3) : Statement (.movRm8Reg8 mod reg rm) :=
  fun P _ => ⟨_, _, rfl, by simp [encodeWith, instrLength, isMoveByte]⟩

theorem movRm16Reg16 (mod : BitVec 2) (reg rm : BitVec 3) : Statement (.movRm16Reg16 mod reg rm) :=
  fun P _ => ⟨_, _, rfl, by simp [encodeWith, instrLength, isMoveByte]⟩

theorem movReg8Rm8 (mod : BitVec 2) (reg rm : BitVec 3) : Statement (.movReg8Rm8 mod reg rm) :=
  fun P _ => ⟨_, _, rfl, by simp [encodeWith, instrLength, isMoveByte]⟩

theorem movReg16Rm16 (mod : BitVec 2) (reg rm : BitVec 3) : Statement (.movReg16Rm16 mod reg rm) :=
  fun P _ => ⟨_, _, rfl, by simp [encodeWith, instrLength, isMoveByte]⟩

theorem skip (op : BitVec 6) (d w : BitVec 1) : Statement (.skip op d w) :=
  fun P h => ⟨_, _, rfl, by simp_all [encodeWith, instrLength, isMoveByte, Instr.wf]⟩

end Sys2Proof.Laws.EncodedLength
end

