-- ==== Sys2Proof/Tests/Slice0.lean ====
section
/-!
SUPPORT. Tests on fixed values, each expected result taken from spec/95_test_vectors.md or worked out by
hand from the rule named, and for every statement with hypotheses a witness that meets them.
-/

namespace Sys2Proof.Tests

open Sys2Proof.Machine

/-- S0 of spec/95_test_vectors.md. -/
def s0 : RegFile :=
  ⟨0x1234#16, 0x5678#16, 0x9ABC#16, 0xDEF0#16, 0x0102#16, 0x0304#16, 0x0506#16, 0x0708#16⟩

/-- S0 in phase Scanning over `bytes`, with `len` their number and the cursor at `pc`. -/
def scan (pc : Nat) (bytes : List Byte) : State :=
  { State.construct s0 with mem := Memory.ofBytes 0 bytes, len := bytes.length, pc := pc, phase := .scanning }

/-- S0 in phase Idle, with one start to come. -/
def waiting (bytes : List Byte) (len : Int) : State :=
  { State.construct s0 with hostStarts := [⟨bytes, len⟩] }

/-- The next state of an outcome. -/
def after : Result → Option State
  | .next t => some t
  | .fault _ => none
  | .refused _ => none

/-! ### Decoding: each word written out bit by bit -/

/-- R78, V4: `88 C4` = `10001000 11 000 100`. -/
theorem test_decode_movRm8Reg8 :
    decode [0b10001000#8, 0b11000100#8] = .ok (.movRm8Reg8 0b11#2 0b000#3 0b100#3, []) := by decide

/-- R79, V14: `89 F9` = `10001001 11 111 001`. -/
theorem test_decode_movRm16Reg16 :
    decode [0b10001001#8, 0b11111001#8] = .ok (.movRm16Reg16 0b11#2 0b111#3 0b001#3, []) := by decide

/-- R80, V15: `8A EC` = `10001010 11 101 100`. -/
theorem test_decode_movReg8Rm8 :
    decode [0b10001010#8, 0b11101100#8] = .ok (.movReg8Rm8 0b11#2 0b101#3 0b100#3, []) := by decide

/-- R81, V13: `8B 89` = `10001011 10 001 001`. -/
theorem test_decode_movReg16Rm16 :
    decode [0b10001011#8, 0b10001001#8] = .ok (.movReg16Rm16 0b10#2 0b001#3 0b001#3, []) := by decide

/-- R85, K2: `A1` = `101000 0 1`, with the bytes after it left over. -/
theorem test_decode_skip :
    decode [0b10100001#8, 0b10001011#8] = .ok (.skip 0b101000#6 0#1 1#1, [0b10001011#8]) := by decide

/-- K3, K4: the opcodes one below and one above the move class are skipped. -/
theorem test_decode_neighbours :
    decode [0x87#8] = .ok (.skip 0x21#6 1#1 1#1, []) ∧ decode [0x8C#8] = .ok (.skip 0x23#6 0#1 0#1, []) := by
  decide

/-- R59, R90: the two ways in which bytes hold no whole instruction. -/
theorem test_decode_errors : decode [] = .error .noByte ∧ decode [0x88#8] = .error .truncatedMove := by decide

/-- P1's `89 C4`, encoded. -/
theorem test_encode : encode (.movRm16Reg16 0b11#2 0b000#3 0b100#3) = [0x89#8, 0xC4#8] := by decide

/-- The opcode table's numbering: byte 0 in bits 15:8 of a move's word, and the one byte of a skip. -/
theorem test_table_words :
    decodeTableWord 16 0x8800 = some (.movRm8Reg8 0#2 0#3 0#3) ∧
    decodeTableWord 16 0x89F9 = some (.movRm16Reg16 0b11#2 0b111#3 0b001#3) ∧
    decodeTableWord 16 0x8A00 = some (.movReg8Rm8 0#2 0#3 0#3) ∧
    decodeTableWord 16 0x8B00 = some (.movReg16Rm16 0#2 0#3 0#3) ∧
    decodeTableWord 8 0 = some (.skip 0#6 0#1 0#1) := by decide

/-- WellFormed's one check: a skip that carries the move class is refused, and its neighbour is not. -/
theorem test_wellFormed :
    Instr.wf Params.default (.skip 0b100010#6 1#1 0#1) = false ∧
    Instr.wf Params.default (.skip 0b100011#6 1#1 0#1) = true := by decide

/-- R52: an order that names a register twice is no `REG_ORDER`. -/
theorem test_regOrder_wf :
    RegOrder.wf ⟨.c, .c, .sp, .bp, .si, .di⟩ = false ∧ RegOrder.wf ⟨.d, .c, .di, .bp, .si, .sp⟩ = true := by
  decide

/-- RES-W0 to RES-B7: all 16 inputs of the resolver. -/
theorem test_resolver_table :
    [0, 1, 2, 3, 4, 5, 6, 7].map (fun n => resolve 1#2 (BitVec.ofNat 3 n)) =
      [⟨.a, .x16⟩, ⟨.c, .x16⟩, ⟨.d, .x16⟩, ⟨.b, .x16⟩, ⟨.sp, .p16⟩, ⟨.bp, .p16⟩, ⟨.si, .p16⟩, ⟨.di, .p16⟩] ∧
    [0, 1, 2, 3, 4, 5, 6, 7].map (fun n => resolve 0#2 (BitVec.ofNat 3 n)) =
      [⟨.a, .l8⟩, ⟨.c, .l8⟩, ⟨.d, .l8⟩, ⟨.b, .l8⟩, ⟨.a, .h8⟩, ⟨.c, .h8⟩, ⟨.d, .h8⟩, ⟨.b, .h8⟩] := by decide

/-! ### One step -/

/-- V10: `88 FA`, `mov dl, bh` gives `d = 0xDE56`, `pc = 2`, Done and one record. -/
theorem test_step_movRm8Reg8 :
    after (step (scan 0 [0x88#8, 0xFA#8])) =
      some { scan 0 [0x88#8, 0xFA#8] with
        regs := { s0 with d := 0xDE56#16 }, pc := 2, phase := .done, trace := [⟨⟨.d, .l8⟩, ⟨.b, .h8⟩⟩] } := by decide

/-- V6: `89 E5`, `mov bp, sp` gives `bp = 0x0102`. -/
theorem test_step_movRm16Reg16 :
    (after (step (scan 0 [0x89#8, 0xE5#8]))).map (·.regs) = some { s0 with bp := 0x0102#16 } := by decide

/-- E2: `8A E0`, `mov ah, al` gives `a = 0x3434`. -/
theorem test_step_movReg8Rm8 :
    (after (step (scan 0 [0x8A#8, 0xE0#8]))).map (·.regs) = some { s0 with a := 0x3434#16 } := by decide

/-- V7: `8B E5`, `mov sp, bp` gives `sp = 0x0304`; the stream goes on, so the phase stays Scanning. -/
theorem test_step_movReg16Rm16 :
    (after (step (scan 0 [0x8B#8, 0xE5#8, 0x00#8]))).map (fun t => (t.regs, t.pc, t.phase)) =
      some ({ s0 with sp := 0x0304#16 }, 2, .scanning) := by decide

/-- K6: `FF` as the last byte: `pc = 1`, Done, nothing else changed. -/
theorem test_step_skip :
    after (step (scan 0 [0xFF#8])) = some { scan 0 [0xFF#8] with pc := 1, phase := .done } := by decide

/-- X3: after the skip of `00`, the `8B` at index 1 is truncated. -/
theorem test_step_truncated :
    after (step (scan 1 [0x00#8, 0x8B#8])) =
      some { scan 1 [0x00#8, 0x8B#8] with phase := .aborted, err := .malformedTruncated } := by decide

/-- E4: a start of length −1 aborts with MALFORMED_EMPTY, registers and `pc` as they were. -/
theorem test_start_negative :
    (after (step (waiting [] (-1)))).map (fun t => (t.regs, t.pc, t.phase, t.err)) =
      some (s0, 0, .aborted, .malformedEmpty) := by decide

/-- P6, pass 3 from Aborted: `start` clears `err`, `pc` and the trace and keeps the registers. -/
theorem test_start_again :
    after (step { waiting [0x8A#8, 0xE3#8] 2 with
        phase := .aborted, err := .malformedTruncated, pc := 5, trace := [⟨⟨.a, .x16⟩, ⟨.b, .x16⟩⟩] }) =
      some (scan 0 [0x8A#8, 0xE3#8]) := by decide

/-- R82's examples. -/
theorem test_render :
    render ⟨⟨.a, .x16⟩, ⟨.b, .x16⟩⟩ = "mov ax, bx" ∧ render ⟨⟨.a, .h8⟩, ⟨.a, .l8⟩⟩ = "mov ah, al" ∧
    render ⟨⟨.sp, .p16⟩, ⟨.a, .x16⟩⟩ = "mov sp, ax" := by decide

/-- The snapshot of S0: the first record whole, and the full value of `sp`. -/
theorem test_snapshot (n : Nat) :
    (snapshot n s0).head? = some ⟨"a", 0x1234#16, 0x34#8, 0x12#8⟩ ∧
    ((snapshot n s0).map (·.full))[4]? = some 0x0102#16 := ⟨rfl, rfl⟩

/-- R20, R21: the codes of the status outputs. -/
theorem test_statusOutputs :
    statusOutputs (scan 3 []) = ⟨1, 0, 3⟩ ∧
    statusOutputs (truncatedState (scan 1 [])) = ⟨3, 2, 1⟩ := by decide

/-- A table word placed in the reset state is the first instruction to run. -/
theorem test_withFetchWord :
    (after (step (State.reset.withFetchWord 16 0x8BC3))).map (fun t => (t.pc, t.phase, t.trace)) =
      some (2, .done, [⟨⟨.a, .x16⟩, ⟨.b, .x16⟩⟩]) := by decide

/-! ### Witnesses of the statements' hypotheses -/

/-- Parameters other than the defaults that the spec allows: another opcode, another order, a unit with
8-bit length and cursor. -/
def otherParams : Params := ⟨0b101000#6, ⟨.d, .c, .di, .si, .bp, .sp⟩, some 8, some 8⟩

/-- Under those parameters `A3 C1` is the move from index 1 to index 0, and index 1 names D. -/
theorem test_step_otherParams :
    (after (stepWith otherParams (scan 0 [0xA3#8, 0xC1#8]))).map (·.regs) = some { s0 with a := 0xDEF0#16 } := by
  decide

/-- The invariants in a state of a pass, at its first byte. -/
theorem inv_scan : Inv Params.default (scan 0 [0x8B#8, 0xC3#8, 0x00#8]) where
  pcBound := by decide
  idle := by decide
  scanning := by decide
  done := by decide
  abortedIff := by decide
  empty := by decide
  truncated := by decide
  noInvariant := by decide
  memCanonical := by decide
  bufferCovers := by decide

theorem witness_DecodeOfEncodeIsTheInstruction :
    Instr.wf otherParams (.skip 0b100010#6 1#1 1#1) = true ∧
    Instr.wf Params.default (.movReg16Rm16 0b01#2 0b111#3 0b000#3) = true := by decide

theorem witness_EncodeOfDecodeIsTheBytes :
    decodeWith Params.default [0x8A#8, 0xFF#8, 0x00#8] = .ok (.movReg8Rm8 0b11#2 0b111#3 0b111#3, [0x00#8]) ∧
    decodeWith otherParams [0x8A#8] = .ok (.skip 0b100010#6 1#1 0#1, []) := by decide

/-- Both branches of R43, at the move class and one above it. -/
theorem witness_FirstByteAloneDecidesTheLength :
    opOf 0x8B#8 = Params.default.moveOpcode ∧ opOf 0x8C#8 ≠ Params.default.moveOpcode := by decide

/-- For ResolverFollowsTheRegisterOrder, ResolverAliasesNoRegister and AMoveHasExactlyTwoFieldEncodings. -/
theorem witness_Params_wf :
    Params.default.wf = true ∧ otherParams.wf = true ∧ (1#2)[0] = true ∧ (2#2)[0] = false := by decide

/-- For ResolverAliasesNoRegister: equal results (of two selectors of one width) and a legal reference. -/
theorem witness_ResolverAliasesNoRegister :
    resolveWith otherParams 0b00#2 5#3 = resolveWith otherParams 0b10#2 5#3 ∧
    OperandRef.legal ⟨.di, .p16⟩ = true ∧ OperandRef.legal ⟨.b, .h8⟩ = true := by decide

/-- For TransferCopiesTheSourceSection: a pair with no value, a byte pair and a word pair with one. -/
theorem witness_TransferCopiesTheSourceSection :
    transfer s0 ⟨.a, .l8⟩ ⟨.sp, .p16⟩ = none ∧
    transfer s0 ⟨.a, .l8⟩ ⟨.b, .h8⟩ = some { s0 with a := 0x1256#16 } ∧
    transfer s0 ⟨.sp, .p16⟩ ⟨.b, .x16⟩ = some { s0 with sp := 0x5678#16 } := by decide

/-- For the four moves' statements: the last byte of a stream, and a second byte that is the last. -/
theorem witness_Moves :
    ((scan 0 [0x88#8]).phase = .scanning ∧ (scan 0 [0x88#8]).len ≤ ((scan 0 [0x88#8]).pc : Int) + 1) ∧
    ((scan 0 [0x88#8, 0xC4#8]).phase = .scanning ∧
      ((scan 0 [0x88#8, 0xC4#8]).pc : Int) + 1 < (scan 0 [0x88#8, 0xC4#8]).len) := by decide

theorem witness_MoveBetweenHalvesMakesThemEqual :
    (scan 1 [0x00#8, 0x88#8, 0xC4#8]).phase = .scanning ∧
    ((scan 1 [0x00#8, 0x88#8, 0xC4#8]).pc : Int) + 1 < (scan 1 [0x00#8, 0x88#8, 0xC4#8]).len := by decide

theorem witness_AMoveSeesThePrecedingMove :
    (scan 0 [0x89#8, 0xC4#8, 0x8B#8, 0xDC#8]).phase = .scanning ∧
    ((scan 0 [0x89#8, 0xC4#8, 0x8B#8, 0xDC#8]).pc : Int) + 3 < (scan 0 [0x89#8, 0xC4#8, 0x8B#8, 0xDC#8]).len := by
  decide

/-- A completed move and a truncated one. -/
theorem witness_FrameOfTheMoves :
    destinationOf (.movReg8Rm8 0b11#2 0b100#3 0b000#3) = some ⟨.a, .h8⟩ ∧
    (∃ t, exec (.movReg8Rm8 0b11#2 0b100#3 0b000#3) (scan 0 [0x8A#8, 0xE0#8]) = .next t) ∧
    (∃ t, exec (.movReg8Rm8 0b11#2 0b100#3 0b000#3) (scan 0 [0x8A#8]) = .next t) :=
  ⟨by decide, ⟨_, rfl⟩, ⟨_, rfl⟩⟩

theorem witness_SkipConsumesOneByte :
    (scan 0 [0xA1#8]).phase = .scanning ∧ ((scan 0 [0xA1#8]).pc : Int) < (scan 0 [0xA1#8]).len ∧
    Memory.read (scan 0 [0xA1#8]).mem 0 = some 0xA1#8 ∧ opOf 0xA1#8 ≠ Params.default.moveOpcode := by decide

theorem witness_FrameOfTheSkip : ∃ t, exec (.skip 0b101000#6 0#1 1#1) (scan 0 [0xA1#8]) = .next t := ⟨_, rfl⟩

/-- The move clauses of StepFollowsTheDispatcher, and TruncatedMoveAborts; the skip clause is above. -/
theorem witness_StepFollowsTheDispatcher :
    ((scan 0 [0x8B#8]).phase = .scanning ∧ ((scan 0 [0x8B#8]).pc : Int) < (scan 0 [0x8B#8]).len ∧
      Memory.read (scan 0 [0x8B#8]).mem 0 = some 0x8B#8 ∧ opOf 0x8B#8 = Params.default.moveOpcode ∧
      (scan 0 [0x8B#8]).len ≤ ((scan 0 [0x8B#8]).pc : Int) + 1) ∧
    ((scan 0 [0x8B#8, 0xC3#8]).phase = .scanning ∧
      ((scan 0 [0x8B#8, 0xC3#8]).pc : Int) + 1 < (scan 0 [0x8B#8, 0xC3#8]).len ∧
      Memory.read (scan 0 [0x8B#8, 0xC3#8]).mem 0 = some 0x8B#8 ∧
      Memory.read (scan 0 [0x8B#8, 0xC3#8]).mem 1 = some 0xC3#8) := by decide

theorem witness_StepRunsTheDecodedInstruction :
    (scan 1 [0x00#8, 0x8B#8, 0xC3#8]).phase = .scanning ∧
    decode [0x8B#8, 0xC3#8] = .ok (.movReg16Rm16 0b11#2 0b000#3 0b011#3, []) ∧
    ∀ j < 2, ((1 + j : Nat) : Int) < (scan 1 [0x00#8, 0x8B#8, 0xC3#8]).len ∧
      Memory.read (scan 1 [0x00#8, 0x8B#8, 0xC3#8]).mem (1 + j) = [0x8B#8, 0xC3#8][j]? := by decide

theorem witness_PlacedTableWordRuns :
    Memory.wf State.reset.mem = true ∧
    decodeTableWord 16 0x8BC3 = some (.movReg16Rm16 0b11#2 0b000#3 0b011#3) := by decide

theorem witness_NothingHappensUntilStart :
    (State.reset.phase ≠ .scanning ∧ State.reset.hostStarts = []) ∧
    (∃ t, step (scan 0 [0x00#8]) = .next t ∧ t.phase = .done ∧ (scan 0 [0x00#8]).phase ≠ .done) :=
  ⟨by decide, _, rfl, rfl, by decide⟩

/-- The clauses of StartBeginsAPass at the lengths 0 and 1 where they meet, and in phase Scanning. -/
theorem witness_StartBeginsAPass :
    (State.construct s0).phase ≠ .scanning ∧ (0 : Int) ≤ ([] : List Byte).length ∧
    (1 : Int) ≤ [0xA1#8].length ∧ lenInRange otherParams 0 = true ∧ lenInRange otherParams 1 = true ∧
    (∃ t, stepWith Params.default (scan 0 [0xA1#8]) = .next t) :=
  ⟨by decide, by decide, by decide, by decide, by decide, _, rfl⟩

theorem witness_EmptyStreamAborts :
    (waiting [0x8B#8] 0).phase ≠ .scanning ∧ (waiting [0x8B#8] 0).hostStarts = [⟨[0x8B#8], 0⟩] := by decide

theorem witness_AWaitingStepTakesTheNextStart :
    (waiting [0x8B#8] 1).phase ≠ .scanning ∧ (waiting [0x8B#8] 1).hostStarts = [⟨[0x8B#8], 1⟩] := by decide

theorem witness_ShortBufferIsNotStarted :
    (waiting [0x8B#8] 2).phase ≠ .scanning ∧ (waiting [0x8B#8] 2).hostStarts = [⟨[0x8B#8], 2⟩] ∧
    ([0x8B#8].length : Int) < 2 := by decide

/-- Two buffers that differ at the index after the truncated move. -/
theorem witness_TruncatedMoveAborts :
    (scan 0 [0x8B#8]).phase = .scanning ∧ ((scan 0 [0x8B#8]).pc : Int) < (scan 0 [0x8B#8]).len ∧
    Memory.read (scan 0 [0x8B#8]).mem 0 = some 0x8B#8 ∧ opOf 0x8B#8 = Params.default.moveOpcode ∧
    (scan 0 [0x8B#8]).len ≤ ((scan 0 [0x8B#8]).pc : Int) + 1 ∧
    Memory.read [(0, 0x8B#8), (1, 0xC3#8)] 0 = some 0x8B#8 := by decide

theorem witness_AbortsArePrecise :
    ∃ t, stepWith Params.default (scan 0 [0x89#8]) = .next t ∧ t.phase = .aborted := ⟨_, rfl, rfl⟩

theorem witness_DoneExactlyWhenExhausted :
    (∃ t, stepWith Params.default (scan 0 [0x00#8]) = .next t ∧ t.phase = .done) ∧
    (∃ t, stepWith Params.default (scan 0 [0x00#8, 0x00#8]) = .next t ∧ t.phase = .scanning) :=
  ⟨⟨_, rfl, rfl⟩, ⟨_, rfl, rfl⟩⟩

theorem witness_OnlyAMoveWritesRegisters :
    ∃ t, stepWith Params.default (scan 0 [0x8B#8, 0xC3#8]) = .next t ∧
      t.regs ≠ (scan 0 [0x8B#8, 0xC3#8]).regs := ⟨_, rfl, by decide⟩

theorem witness_TheBufferIsFixedDuringAPass :
    (scan 0 [0x8B#8, 0xC3#8]).phase = .scanning ∧
    ∃ t, stepWith Params.default (scan 0 [0x8B#8, 0xC3#8]) = .next t := ⟨rfl, _, rfl⟩

/-- The clauses of ReadsStayInTheStream: a skip that is not the last byte, a truncated move, a move whose
second byte is the last, and a phase other than Scanning. -/
theorem witness_ReadsStayInTheStream :
    (opOf 0x00#8 ≠ Params.default.moveOpcode ∧
      readIndices Params.default (scan 0 [0x00#8, 0x8B#8]) = [0]) ∧
    ((scan 0 [0x8B#8]).len ≤ ((scan 0 [0x8B#8]).pc : Int) + 1 ∧
      readIndices Params.default (scan 0 [0x8B#8]) = [0]) ∧
    (((scan 0 [0x8B#8, 0xC3#8]).pc : Int) + 1 < (scan 0 [0x8B#8, 0xC3#8]).len ∧
      readIndices Params.default (scan 0 [0x8B#8, 0xC3#8]) = [0, 1]) ∧
    State.reset.phase ≠ .scanning := by decide

/-- Both cases: an abort that sets `err`, and a start that clears it. -/
theorem witness_ErrChangesOnlyAtAbortOrStart :
    (∃ t, stepWith Params.default (scan 0 [0x8B#8]) = .next t ∧ t.err ≠ (scan 0 [0x8B#8]).err) ∧
    (∃ t, stepWith Params.default { waiting [0x00#8] 1 with phase := .aborted, err := .malformedTruncated } = .next t ∧
      t.err ≠ .malformedTruncated) := ⟨⟨_, rfl, by decide⟩, ⟨_, rfl, by decide⟩⟩

/-- A buffer that differs from the stream's only where a skip does not read. -/
theorem witness_UnreadBytesMakeNoDifference :
    (scan 0 [0x00#8, 0x8B#8]).phase = .scanning ∧
    (∀ i ∈ readIndices Params.default (scan 0 [0x00#8, 0x8B#8]),
      Memory.read [(0, 0x00#8), (1, 0xFF#8)] i = Memory.read (scan 0 [0x00#8, 0x8B#8]).mem i) := by decide

/-- For StepKeepsTheInvariants, AStepOfAPassAlwaysGoesOn and EveryPassEnds. -/
theorem witness_StepKeepsTheInvariants :
    Inv Params.default (scan 0 [0x8B#8, 0xC3#8, 0x00#8]) ∧
    (scan 0 [0x8B#8, 0xC3#8, 0x00#8]).phase = .scanning ∧
    (∃ t, step (scan 0 [0x8B#8, 0xC3#8, 0x00#8]) = .next t) ∧
    (∃ t, stepWith Params.default (scan 0 [0x8B#8, 0xC3#8, 0x00#8]) = .next t) :=
  ⟨inv_scan, rfl, ⟨_, rfl⟩, ⟨_, rfl⟩⟩

/-- For EveryPassEnds and APassIsTheLoopOverItsStream, on P3's stream, which a truncated move ends. -/
theorem witness_APassIsTheLoopOverItsStream :
    (∃ t0, startWith Params.default ⟨[0x8B#8, 0xC3#8, 0x00#8, 0x89#8], 4⟩ (State.construct s0) = .next t0) ∧
    runStream Params.default [0x8B#8, 0xC3#8, 0x00#8, 0x89#8] s0 =
      ⟨{ s0 with a := 0x5678#16 }, [⟨⟨.a, .x16⟩, ⟨.b, .x16⟩⟩], 1, 1, true⟩ := ⟨⟨_, rfl⟩, by decide⟩

/-- A unit of 8-bit cursor in its first step. -/
theorem witness_AcceptedLengthFitsTheCursor :
    otherParams.addrW = some 8 ∧
    ∃ t0, startWith otherParams ⟨[0x00#8], 1⟩ (State.construct s0) = .next t0 ∧
      (coreWith otherParams).run 0 t0 = .next t0 ∧ t0.phase = .scanning := ⟨rfl, _, rfl, rfl, rfl⟩

/-- At the ends of an 8-bit unit's range: 127 is in it, and refused for its short buffer; 128 and −129 are
not, whatever the buffer; with `LEN_W` open, 254 is in it and 255 is not. -/
theorem witness_LengthOutOfRangeIsRefused :
    (waiting [] 128).phase ≠ .scanning ∧ (waiting [] 128).hostStarts = [⟨[], 128⟩] ∧
    stepWith otherParams (waiting [] 127) = .refused .bufferShorterThanLen ∧
    stepWith otherParams (waiting [] 128) = .refused .lengthOutOfRange ∧
    stepWith otherParams (waiting [] (-129)) = .refused .lengthOutOfRange ∧
    stepWith { otherParams with lenW := none } (waiting [] 254) = .refused .bufferShorterThanLen ∧
    stepWith { otherParams with lenW := none } (waiting [] 255) = .refused .lengthOutOfRange :=
  ⟨by decide, rfl, rfl, rfl, rfl, rfl, rfl⟩

/-- The three clauses of TheTextOutputGainsTheMovesLine. -/
theorem witness_TheTextOutputGainsTheMovesLine :
    (destinationOf (.movReg16Rm16 0b11#2 0b000#3 0b011#3) = some ⟨.a, .x16⟩ ∧
      instrTextWith Params.default (.movReg16Rm16 0b11#2 0b000#3 0b011#3) = some "mov ax, bx" ∧
      (∃ t, exec (.movReg16Rm16 0b11#2 0b000#3 0b011#3) (scan 0 [0x8B#8, 0xC3#8]) = .next t) ∧
      ((scan 0 [0x8B#8, 0xC3#8]).pc : Int) + 1 < (scan 0 [0x8B#8, 0xC3#8]).len) ∧
    (destinationOf (.skip 0b101000#6 0#1 1#1) = none ∧
      ∃ t, exec (.skip 0b101000#6 0#1 1#1) (scan 0 [0xA1#8]) = .next t) ∧
    (∃ t, exec (.movReg16Rm16 0b11#2 0b000#3 0b011#3) (scan 0 [0x8B#8]) = .next t ∧ t.phase = .aborted) :=
  ⟨⟨by decide, by decide, ⟨_, rfl⟩, by decide⟩, ⟨rfl, ⟨_, rfl⟩⟩, ⟨_, rfl, rfl⟩⟩

end Sys2Proof.Tests
end

section
/-! SUPPORT. The rules of spec/10_state.md that the statements on the state turn on: what a section read
returns after a section write (R17), what a start and a completed move leave (R27, R76), and what a record
of the snapshot holds (R25). -/

namespace Sys2Proof.Machine

/-! ### Sections of a register -/

@[simp] theorem secRead_high_setLow (x : RegFile) (r : RegId) (v : Byte) :
    secRead (x.setLow r v) ⟨r, .h8⟩ = secRead x ⟨r, .h8⟩ := by
  simp [secRead]

@[simp] theorem secRead_low_setHigh (x : RegFile) (r : RegId) (v : Byte) :
    secRead (x.setHigh r v) ⟨r, .l8⟩ = secRead x ⟨r, .l8⟩ := by
  simp [secRead]

@[simp] theorem secRead_low_set (x : RegFile) (r : RegId) (v : Word) :
    secRead (x.set r v) ⟨r, .l8⟩ = .byte (lowByte v) := by
  simp [secRead]

@[simp] theorem secRead_high_set (x : RegFile) (r : RegId) (v : Word) :
    secRead (x.set r v) ⟨r, .h8⟩ = .byte (highByte v) := by
  simp [secRead]

/-! ### A completed move -/

section
variable (s : State) (r : TraceRecord) (x : RegFile)

@[simp] theorem moved_err : (moved s r x).err = s.err := by simp [moved]
@[simp] theorem moved_len : (moved s r x).len = s.len := by simp [moved]
@[simp] theorem moved_mem : (moved s r x).mem = s.mem := by simp [moved]
@[simp] theorem moved_hostStarts : (moved s r x).hostStarts = s.hostStarts := by simp [moved]

end

/-! ### The start of a pass -/

/-- R27: a start writes no register. -/
theorem startWith_regs {P : Params} {r : StartRequest} {s t : State}
    (h : startWith P r s = .next t) : t.regs = s.regs := by
  obtain ⟨-, -, ⟨-, rfl⟩ | ⟨-, rfl⟩⟩ := startWith_next h
  · rfl
  · rfl

/-- R65: a start either begins a pass with `err` cleared or aborts it as empty. -/
theorem startWith_phase_err {P : Params} {r : StartRequest} {s t : State}
    (h : startWith P r s = .next t) :
    (t.phase = .scanning ∧ t.err = .none) ∨ (t.phase = .aborted ∧ t.err = .malformedEmpty) := by
  obtain ⟨-, -, ⟨-, rfl⟩ | ⟨-, rfl⟩⟩ := startWith_next h
  · exact .inr ⟨rfl, rfl⟩
  · exact .inl ⟨rfl, rfl⟩

/-- R18: outside phase Scanning no step writes a register. -/
theorem stepWith_waiting_regs {P : Params} {s t : State} (hs : s.phase ≠ .scanning)
    (h : stepWith P s = .next t) : t.regs = s.regs := by
  obtain ⟨-, rfl⟩ | ⟨_, _, -, hst⟩ := stepWith_waiting hs h
  · rfl
  · exact (startWith_regs hst :)

/-! ### The snapshot -/

@[simp] theorem snapshotRecord_name (n : Nat) (x : RegFile) (r : RegId) :
    (snapshotRecord n x r).name = regName r := by
  unfold snapshotRecord; split <;> rfl

@[simp] theorem snapshotRecord_full (n : Nat) (x : RegFile) (r : RegId) :
    (snapshotRecord n x r).full = x.get r := by
  unfold snapshotRecord; split <;> rfl

/-- The two halves of a general-purpose register's record make its value, whatever the draws. -/
theorem snapshotRecord_halves (n : Nat) (x : RegFile) {r : RegId} (hr : r.isGeneral = true) :
    (snapshotRecord n x r).high ++ (snapshotRecord n x r).low = x.get r := by
  rw [snapshotRecord, if_pos hr]
  exact joinBytes_halves (x.get r)

end Sys2Proof.Machine
end

section
/-! SUPPORT. The statements on the state (spec/10_state.md), settled. -/

namespace Sys2Proof.Machine

/-- Settles O8: each section write is a `set` of one register, whose two halves are joined from the
written byte and the byte that stays. -/
theorem sectionsOfARegisterAreIndependent : Obligations.SectionsOfARegisterAreIndependent := by
  intro x r v8 v16
  refine ⟨⟨x.setLow r v8, rfl, secRead_high_setLow x r v8, fun _ => get_setLow_other x v8⟩,
    ⟨x.setHigh r v8, rfl, secRead_low_setHigh x r v8, fun _ => get_setHigh_other x v8⟩,
    ⟨x.set r v16, rfl, secRead_low_set x r v16, secRead_high_set x r v16, ?_⟩,
    ⟨x.set r v16, rfl, ?_⟩⟩
  · exact fun _ => get_set_other x v16
  · exact fun _ => get_set_other x v16

/-- Settles O31, by the cases of a step: a waiting step, a skip and an abort keep the registers. -/
theorem onlyAMoveWritesRegisters : Obligations.OnlyAMoveWritesRegisters := by
  intro P s t h hne
  by_cases hs : s.phase = .scanning
  case neg => exact absurd (stepWith_waiting_regs hs h) hne
  case pos =>
    obtain ⟨b0, -, hb, ⟨-, rfl⟩ | ⟨-, -, rfl⟩ | ⟨hm, hl, -⟩⟩ := stepWith_scanning hs h
    · simp at hne
    · simp at hne
    · exact ⟨hs, hl, b0, hb, by simpa [isMoveByte] using hm⟩

/-- Settles O32: none of the three things a step of a pass can do writes the buffer, the length or the
host's starts. -/
theorem theBufferIsFixedDuringAPass : Obligations.TheBufferIsFixedDuringAPass := by
  intro P s t hs h
  suffices hkept : t.mem = s.mem ∧ t.len = s.len ∧ t.hostStarts = s.hostStarts by
    obtain ⟨hmem, hrest⟩ := hkept
    exact ⟨fun a => by rw [hmem], hmem, hrest⟩
  obtain ⟨_, -, -, ⟨-, rfl⟩ | ⟨-, -, rfl⟩ | ⟨-, -, _, _, -, -, rfl⟩⟩ := stepWith_scanning hs h
  · simp
  · simp
  · simp

/-- Settles O33, by the cases of a step: in phase Scanning only the truncated move writes `err`, and
outside it only a start does. -/
theorem errChangesOnlyAtAbortOrStart : Obligations.ErrChangesOnlyAtAbortOrStart := by
  intro P s t h hne
  by_cases hs : s.phase = .scanning
  case pos =>
    obtain ⟨_, -, -, ⟨-, rfl⟩ | ⟨-, -, rfl⟩ | ⟨-, -, _, _, -, -, rfl⟩⟩ := stepWith_scanning hs h
    · simp at hne
    · exact .inl ⟨hs, rfl, rfl⟩
    · simp at hne
  case neg =>
    obtain ⟨-, rfl⟩ | ⟨r, later, hh, hst⟩ := stepWith_waiting hs h
    · exact absurd rfl hne
    · exact .inr ⟨hs, by simp [hh], startWith_phase_err hst⟩

/-- Settles O37: construction writes these values out. -/
theorem constructionState : Obligations.ConstructionState :=
  fun _ => ⟨rfl, rfl, rfl, rfl, rfl, rfl⟩

/-- Settles O44, from what one record holds: no draw stands in a general-purpose register's record. -/
theorem snapshotReportsTheRegisters : Obligations.SnapshotReportsTheRegisters := by
  intro s
  refine ⟨?names, ?values, ?halves, s.draws + 1, rfl⟩
  case names => simp [readSnapshot, snapshot, regName]
  case values => simp [readSnapshot, snapshot, RegFile.get]
  case halves =>
    have hgeneral : ∀ r ∈ [RegId.a, .b, .c, .d], r.isGeneral = true := by decide
    have hjoined : [RegId.a, .b, .c, .d].map
        (fun r => (snapshotRecord s.draws s.regs r).high ++ (snapshotRecord s.draws s.regs r).low) =
          [RegId.a, .b, .c, .d].map s.regs.get :=
      List.map_congr_left fun r hr => snapshotRecord_halves s.draws s.regs (hgeneral r hr)
    exact hjoined

/-- Settles O46: the outputs are the codes of `phase` and of `err`, and the cursor itself. -/
theorem statusOutputsReportPhaseErrAndCursor : Obligations.StatusOutputsReportPhaseErrAndCursor := by
  intro s
  refine ⟨rfl, ⟨?_, ?_, ?_, ?_⟩, ⟨?_, ?_, ?_, ?_⟩⟩
  all_goals intro h; simp [statusOutputs, h, Phase.code, ErrCode.code]

end Sys2Proof.Machine
end

section
/-! SUPPORT. The rules of spec/20_memory.md that the statements on the stream buffer turn on: which indices
a step reads (R35, R36), what a step keeps when the buffer is replaced, and when a start is refused (R42,
D23). -/

namespace Sys2Proof.Machine

/-! ### What a step reads -/

/-- R57, R67: the classifier compares the opcode field. -/
theorem isMoveByte_iff {P : Params} {b0 : Byte} : isMoveByte P b0 = true ↔ opOf b0 = P.moveOpcode := by
  simp [isMoveByte]

theorem readIndices_waiting {P : Params} {s : State} (hs : s.phase ≠ .scanning) :
    readIndices P s = [] := by
  unfold readIndices
  cases hp : s.phase with
  | scanning => exact absurd hp hs
  | idle => rfl
  | done => rfl
  | aborted => rfl

section
variable {P : Params} {s : State} {b0 : Byte} (hs : s.phase = .scanning)
include hs

theorem readIndices_outsideStream (hr : memRead s s.pc = .outsideStream) : readIndices P s = [] := by
  simp [readIndices, hs, hr]

theorem readIndices_notSupplied (hr : memRead s s.pc = .notSupplied) : readIndices P s = [s.pc] := by
  simp [readIndices, hs, hr]

/-- R35: a skip and a truncated move read the byte at the cursor alone. -/
theorem readIndices_one (hr : memRead s s.pc = .byte b0)
    (h : isMoveByte P b0 = false ∨ s.len ≤ (s.pc : Int) + 1) : readIndices P s = [s.pc] := by
  simp only [readIndices, hs, hr]
  exact if_neg fun ⟨hm, hl⟩ => h.elim (by simp [hm]) hl

/-- R35, R36: a move with its second byte in the stream reads both. -/
theorem readIndices_two (hr : memRead s s.pc = .byte b0) (hm : isMoveByte P b0 = true)
    (hl : (s.pc : Int) + 1 < s.len) : readIndices P s = [s.pc, s.pc + 1] := by
  simp only [readIndices, hs, hr]
  exact if_pos ⟨hm, not_le.2 hl⟩

end

/-- R36: every index a step reads is an index of the stream. -/
theorem readIndices_lt_len {P : Params} {s : State} {i : Nat} (hi : i ∈ readIndices P s) :
    (i : Int) < s.len := by
  by_cases hs : s.phase = .scanning
  case neg => simp [readIndices_waiting hs] at hi
  case pos =>
    cases hr : memRead s s.pc with
    | outsideStream => simp [readIndices_outsideStream hs hr] at hi
    | notSupplied =>
      obtain ⟨hlt, -⟩ := memRead_notSupplied.1 hr
      rw [readIndices_notSupplied hs hr, List.mem_singleton] at hi
      exact hi ▸ hlt
    | byte b0 =>
      obtain ⟨hlt, -⟩ := memRead_byte.1 hr
      by_cases h : isMoveByte P b0 = false ∨ s.len ≤ (s.pc : Int) + 1
      · rw [readIndices_one hs hr h, List.mem_singleton] at hi
        exact hi ▸ hlt
      · obtain ⟨hm, hl⟩ := not_or.1 h
        rw [readIndices_two hs hr (by simpa using hm) (not_le.1 hl)] at hi
        simp only [List.mem_cons, List.not_mem_nil, or_false] at hi
        omega

/-! ### A step of a pass, by what its fetch answers -/

section
variable {P : Params} {s : State} (hs : s.phase = .scanning)
include hs

theorem stepWith_instr {i : Instr} (hf : fetchWith P s = .instr i) : stepWith P s = execWith P i s := by
  simp only [stepWith, stepBy, hs, hf]

theorem stepWith_truncatedMove (hf : fetchWith P s = .truncatedMove) :
    stepWith P s = .next (raiseMalformed .truncated s) := by
  simp only [stepWith, stepBy, hs, hf]

theorem stepWith_outsideStream (hf : fetchWith P s = .outsideStream) :
    stepWith P s = .fault .readOutsideStream := by
  simp only [stepWith, stepBy, hs, hf]

theorem stepWith_notSupplied (hf : fetchWith P s = .notSupplied) :
    stepWith P s = .refused .bufferShorterThanLen := by
  simp only [stepWith, stepBy, hs, hf]

end

/-! ### Replacing the buffer -/

section
variable (P : Params) (s : State) (m : Memory)

/-- A read sees one byte of the buffer. -/
theorem memRead_replaceMem {i : Nat} (h : Memory.read m i = Memory.read s.mem i) :
    memRead { s with mem := m } i = memRead s i := by
  simp only [memRead, h]

/-- Outside the stream a read does not see the buffer. -/
theorem memRead_replaceMem_outside {i : Nat} (h : memRead s i = .outsideStream) :
    memRead { s with mem := m } i = .outsideStream :=
  memRead_outside.2 (memRead_outside.1 h :)

/-- R36, R68: the fetch sees no byte but those at the indices the step reads. -/
theorem fetchWith_replaceMem (hs : s.phase = .scanning)
    (h : ∀ i ∈ readIndices P s, Memory.read m i = Memory.read s.mem i) :
    fetchWith P { s with mem := m } = fetchWith P s := by
  cases hr : memRead s s.pc with
  | outsideStream => simp [fetchWith, hr, memRead_replaceMem_outside s m hr]
  | notSupplied =>
    rw [readIndices_notSupplied hs hr] at h
    simp [fetchWith, hr, memRead_replaceMem s m (h s.pc (by simp))]
  | byte b0 =>
    by_cases hone : isMoveByte P b0 = false ∨ s.len ≤ (s.pc : Int) + 1
    · rw [readIndices_one hs hr hone] at h
      obtain hm | hl := hone
      · simp [fetchWith, hr, hm, memRead_replaceMem s m (h s.pc (by simp))]
      · simp [fetchWith, hr, hl, memRead_replaceMem s m (h s.pc (by simp))]
    · obtain ⟨hm, hl⟩ := not_or.1 hone
      rw [readIndices_two hs hr (by simpa using hm) (not_le.1 hl)] at h
      simp [fetchWith, hr, memRead_replaceMem s m (h s.pc (by simp)),
        memRead_replaceMem s m (h (s.pc + 1) (by simp))]

theorem finish_replaceMem : ({ s with mem := m } : State).finish = { s.finish with mem := m } := by
  unfold State.finish
  split
  · rfl
  · rfl

/-- R76: a move of any form does not see the buffer. -/
theorem moveWith_replaceMem (sel : BitVec 2) (reg rm : BitVec 3) :
    moveWith P sel reg rm { s with mem := m } =
      onNext (fun t => { t with mem := m }) (moveWith P sel reg rm s) := by
  by_cases hl : s.len ≤ (s.pc : Int) + 1
  · rw [moveWith_truncated P sel reg rm hl]
    exact moveWith_truncated P sel reg rm hl
  · obtain ⟨x, hx, hmove⟩ := moveWith_completes P sel reg rm (not_le.1 hl)
    obtain ⟨y, hy, hmove'⟩ :=
      moveWith_completes P sel reg rm (s := { s with mem := m }) (not_le.1 hl)
    obtain rfl : x = y := Option.some.inj (hx.symm.trans hy)
    rw [hmove, hmove']
    exact congrArg Host.Outcome.next
      (finish_replaceMem (((s.emit (operandsWith P sel reg rm)).withRegs x).advance 2) m)

/-- R68: an instruction's effect does not see the buffer, and leaves it as it is. -/
theorem execWith_replaceMem (i : Instr) :
    execWith P i { s with mem := m } = onNext (fun t => { t with mem := m }) (execWith P i s) := by
  rw [execWith_eq, execWith_eq]
  cases moveFields i with
  | some f => exact moveWith_replaceMem P s m f.1 f.2.1 f.2.2
  | none => exact congrArg Host.Outcome.next (finish_replaceMem (s.advance 1) m)

end

/-! ### Refused starts -/

/-- R65, R66: outside phase Scanning a step waits for the host. -/
theorem stepWith_eq_awaitStart {P : Params} {s : State} (hs : s.phase ≠ .scanning) :
    stepWith P s = awaitStart P s := by
  unfold stepWith stepBy
  cases hp : s.phase with
  | scanning => exact absurd hp hs
  | idle => rfl
  | done => rfl
  | aborted => rfl

/-- R65: outside phase Scanning a step takes the host's next start (entry 5). -/
theorem stepWith_takesStart {P : Params} {s : State} {r : StartRequest} {later : List StartRequest}
    (hs : s.phase ≠ .scanning) (hh : s.hostStarts = r :: later) :
    stepWith P s = startWith P r { s with hostStarts := later } := by
  rw [stepWith_eq_awaitStart hs, awaitStart, hh]

/-- D10, D23: the lengths a unit does not take are those outside its range. -/
theorem lenInRange_eq_false {P : Params} {len : Int} :
    lenInRange P len = false ↔ LengthOutOfRange P len := by
  unfold lenInRange LengthOutOfRange
  rw [Bool.and_eq_false_iff]
  refine or_congr ?lenW ?addrW
  case lenW =>
    cases P.lenW with
    | none => simp
    | some w => simp [imp_iff_not_or]
  case addrW =>
    cases P.addrW with
    | none => simp
    | some w => simp

theorem lenInRange_eq_true {P : Params} {len : Int} :
    lenInRange P len = true ↔ ¬ LengthOutOfRange P len := by
  rw [← lenInRange_eq_false, Bool.not_eq_false]

section
variable {P : Params} {r : StartRequest} {s : State}

/-- D23: the range is looked at first (entry 7), so nothing else bears on this refusal. -/
theorem startWith_eq_lengthOutOfRange :
    startWith P r s = .refused .lengthOutOfRange ↔ LengthOutOfRange P r.len := by
  rw [← lenInRange_eq_false]
  constructor
  · intro h
    obtain ⟨hrange, -⟩ | ⟨-, -, he⟩ := startWith_refused h
    · exact hrange
    · cases he
  · intro hrange
    simp [startWith, hrange]

/-- R42: a short buffer is refused at a length in range. -/
theorem startWith_eq_bufferShorterThanLen :
    startWith P r s = .refused .bufferShorterThanLen ↔
      ¬ LengthOutOfRange P r.len ∧ (r.bytes.length : Int) < r.len := by
  rw [← lenInRange_eq_true]
  constructor
  · intro h
    obtain ⟨-, he⟩ | ⟨hrange, hshort, -⟩ := startWith_refused h
    · cases he
    · exact ⟨hrange, hshort⟩
  · intro ⟨hrange, hshort⟩
    simp [startWith, hrange, hshort]

end

end Sys2Proof.Machine
end

section
/-! SUPPORT. The statements on the stream buffer (spec/20_memory.md), settled. -/

namespace Sys2Proof.Machine

/-- Settles O35, by what the read at the cursor answers. -/
theorem readsStayInTheStream : Obligations.ReadsStayInTheStream := by
  intro P s
  refine ⟨fun _ => readIndices_lt_len, ?_, readIndices_waiting⟩
  intro b0 hs hlt hb
  have hr : memRead s s.pc = .byte b0 := memRead_byte.2 ⟨hlt, hb⟩
  constructor
  · intro h
    exact readIndices_one hs hr (h.imp_left fun hne => by simpa [isMoveByte] using hne)
  · intro hop hl
    exact readIndices_two hs hr (isMoveByte_iff.2 hop) hl

/-- Settles O36: the fetch sees only the bytes at the indices read, and what it fetched runs without
the buffer. -/
theorem unreadBytesMakeNoDifference : Obligations.UnreadBytesMakeNoDifference := by
  intro P s m hs hreads
  have hfetch := fetchWith_replaceMem P s m hs hreads
  have hs' : ({ s with mem := m } : State).phase = .scanning := hs
  cases hf : fetchWith P s with
  | instr i =>
    rw [stepWith_instr hs hf, stepWith_instr hs' (hfetch.trans hf)]
    exact execWith_replaceMem P s m i
  | truncatedMove =>
    rw [stepWith_truncatedMove hs hf, stepWith_truncatedMove hs' (hfetch.trans hf)]
    rfl
  | outsideStream =>
    rw [stepWith_outsideStream hs hf, stepWith_outsideStream hs' (hfetch.trans hf)]
    rfl
  | notSupplied =>
    rw [stepWith_notSupplied hs hf, stepWith_notSupplied hs' (hfetch.trans hf)]
    rfl

/-- Settles O47: the step is the start, whose two refusals are these. -/
theorem lengthOutOfRangeIsRefused : Obligations.LengthOutOfRangeIsRefused := by
  intro P s r later hs hh
  rw [stepWith_takesStart hs hh]
  exact ⟨startWith_eq_lengthOutOfRange, startWith_eq_bufferShorterThanLen⟩

/-- Settles O27: at the default widths every length is in range, so only the buffer is looked at. -/
theorem shortBufferIsNotStarted : Obligations.ShortBufferIsNotStarted := by
  intro s r later hs hh hshort
  rw [step_eq_stepWith, stepWith_takesStart hs hh, startWith_eq_bufferShorterThanLen]
  exact ⟨lenInRange_eq_true.1 (lenInRange_default r.len), hshort⟩

end Sys2Proof.Machine
end

section
/-! SUPPORT. The rules of spec/30_encoding.md that the statements on the encoding turn on: what the decoder
and the encoder make of a move and of a skip (R43 to R45, R57), the resolver as the table of R52, and what
an executed instruction adds to the trace (R73). -/

namespace Sys2Proof

/-! ### The fields -/

/-- A field of a byte as a number: the byte shifted down to the field's lowest bit and cut to its width. -/
theorem toNat_field (b : Byte) (start width : Nat) :
    (b.extractLsb' start width).toNat = b.toNat / 2 ^ start % 2 ^ width := by
  rw [BitVec.extractLsb'_toNat, Nat.shiftRight_eq_div_pow]

/-! ### The decoder and the encoder -/

section
variable {P : Params} {b0 : Byte}

theorem decodeWith_move (hop : opOf b0 = P.moveOpcode) (b1 : Byte) (rest : List Byte) :
    decodeWith P (b0 :: b1 :: rest) = .ok (moveOf b0 b1, rest) := by
  simp [decodeWith, isMoveByte, hop]

theorem decodeWith_truncated (hop : opOf b0 = P.moveOpcode) :
    decodeWith P [b0] = .error .truncatedMove := by
  simp [decodeWith, isMoveByte, hop]

theorem decodeWith_skip (hop : opOf b0 ≠ P.moveOpcode) (rest : List Byte) :
    decodeWith P (b0 :: rest) = .ok (skipOf b0, rest) := by
  simp [decodeWith, isMoveByte, hop]

/-- Everything the decoder can read (R43): a move from two bytes, or a skip from one. -/
theorem decodeWith_ok {bytes rest : List Byte} {i : Instr} (h : decodeWith P bytes = .ok (i, rest)) :
    (∃ b0 b1, opOf b0 = P.moveOpcode ∧ bytes = b0 :: b1 :: rest ∧ i = moveOf b0 b1) ∨
    (∃ b0, opOf b0 ≠ P.moveOpcode ∧ bytes = b0 :: rest ∧ i = skipOf b0) := by
  cases bytes with
  | nil => cases h
  | cons b0 tail =>
    by_cases hop : opOf b0 = P.moveOpcode
    case neg =>
      rw [decodeWith_skip hop] at h
      cases h
      exact .inr ⟨b0, hop, rfl, rfl⟩
    case pos =>
      cases tail with
      | nil =>
        rw [decodeWith_truncated hop] at h
        cases h
      | cons b1 tail =>
        rw [decodeWith_move hop] at h
        cases h
        exact .inl ⟨b0, b1, hop, rfl, rfl⟩

/-- R59: a move is well formed at every operand. -/
@[simp] theorem wf_moveOf (b0 b1 : Byte) : (moveOf b0 b1).wf P = true := by
  unfold moveOf
  split <;> split <;> rfl

@[simp] theorem wf_skipOf : (skipOf b0).wf P = true ↔ opOf b0 ≠ P.moveOpcode := by
  simp [skipOf, Instr.wf]

/-- R44, R45: the encoder puts a move's two bytes together again from their fields. -/
theorem encodeWith_moveOf (hop : opOf b0 = P.moveOpcode) (b1 : Byte) :
    encodeWith P (moveOf b0 b1) = [b0, b1] := by
  have hb0 : byte0 P.moveOpcode (dOf b0) (wOf b0) = b0 := hop ▸ byte0_fields b0
  rcases bit_cases (dOf b0) with hd | hd <;> rcases bit_cases (wOf b0) with hw | hw <;>
    rw [hd, hw] at hb0 <;> simp [moveOf, encodeWith, hd, hw, hb0]

/-- R44, R85: the encoder puts a skip's byte together again from its fields. -/
@[simp] theorem encodeWith_skipOf : encodeWith P (skipOf b0) = [b0] := by
  simp [skipOf, encodeWith]

end

/-- Everything the encoder can write for a well-formed instruction: the two bytes of a move or the one
byte of a skip, which hold the instruction. -/
theorem encodeWith_cases {P : Params} {i : Instr} (h : i.wf P = true) :
    (∃ b0 b1, opOf b0 = P.moveOpcode ∧ encodeWith P i = [b0, b1] ∧ moveOf b0 b1 = i) ∨
    (∃ b0, opOf b0 ≠ P.moveOpcode ∧ encodeWith P i = [b0] ∧ skipOf b0 = i) := by
  cases i with
  | movRm8Reg8 mod reg rm => exact .inl ⟨_, _, opOf_byte0 _ _ _, rfl, by simp [moveOf]⟩
  | movRm16Reg16 mod reg rm => exact .inl ⟨_, _, opOf_byte0 _ _ _, rfl, by simp [moveOf]⟩
  | movReg8Rm8 mod reg rm => exact .inl ⟨_, _, opOf_byte0 _ _ _, rfl, by simp [moveOf]⟩
  | movReg16Rm16 mod reg rm => exact .inl ⟨_, _, opOf_byte0 _ _ _, rfl, by simp [moveOf]⟩
  | skip op d w => exact .inr ⟨_, by simpa [Instr.wf] using h, rfl, by simp [skipOf]⟩

/-! ### The register order -/

/-- The registers of the indices 0 to 3 under `g` of R52. -/
def RegOrder.generals (o : RegOrder) : List RegId := [.a, o.g1, o.g2, .b]

/-- The registers of the indices 4 to 7 under `p` of R52. -/
def RegOrder.pointers (o : RegOrder) : List RegId := [o.p4, o.p5, o.p6, o.p7]

section
variable {o : RegOrder} (h : o.wf = true)
include h

/-- R52: `g` lists the general-purpose registers. -/
theorem generals_perm : o.generals.Perm [.a, .c, .d, .b] := by
  obtain ⟨hg, -⟩ := Bool.and_eq_true_iff.1 h
  exact ((List.isPerm_iff.1 hg).append_right [.b]).cons .a

/-- R52: `p` lists the pointer/index registers. -/
theorem pointers_perm : o.pointers.Perm [.sp, .bp, .si, .di] := by
  obtain ⟨-, hp⟩ := Bool.and_eq_true_iff.1 h
  exact List.isPerm_iff.1 hp

theorem mem_generals {r : RegId} : r ∈ o.generals ↔ r.isGeneral = true := by
  rw [(generals_perm h).mem_iff]
  cases r <;> decide

theorem mem_pointers {r : RegId} : r ∈ o.pointers ↔ r.isGeneral = false := by
  rw [(pointers_perm h).mem_iff]
  cases r <;> decide

theorem generals_nodup : o.generals.Nodup := (generals_perm h).nodup_iff.2 (by decide)

theorem pointers_nodup : o.pointers.Nodup := (pointers_perm h).nodup_iff.2 (by decide)

end

namespace Machine

theorem twoBit_cases (i : BitVec 2) : i = 0#2 ∨ i = 1#2 ∨ i = 2#2 ∨ i = 3#2 := by
  revert i; decide

theorem generalReg_eq_get (o : RegOrder) (i : BitVec 2) : generalReg o i = o.generals.get i.toFin := by
  rcases twoBit_cases i with rfl | rfl | rfl | rfl <;> rfl

theorem pointerReg_eq_get (o : RegOrder) (i : BitVec 2) : pointerReg o i = o.pointers.get i.toFin := by
  rcases twoBit_cases i with rfl | rfl | rfl | rfl <;> rfl

section
variable {o : RegOrder} (h : o.wf = true)
include h

theorem generalReg_injective : Function.Injective (generalReg o) := by
  intro i j hij
  rw [generalReg_eq_get, generalReg_eq_get] at hij
  exact BitVec.eq_of_toFin_eq (List.nodup_iff_injective_get.1 (generals_nodup h) hij)

theorem pointerReg_injective : Function.Injective (pointerReg o) := by
  intro i j hij
  rw [pointerReg_eq_get, pointerReg_eq_get] at hij
  exact BitVec.eq_of_toFin_eq (List.nodup_iff_injective_get.1 (pointers_nodup h) hij)

theorem isGeneral_generalReg (i : BitVec 2) : (generalReg o i).isGeneral = true := by
  rw [generalReg_eq_get, ← mem_generals h]
  exact List.get_mem _ _

theorem isGeneral_pointerReg (i : BitVec 2) : (pointerReg o i).isGeneral = false := by
  rw [pointerReg_eq_get, ← mem_pointers h]
  exact List.get_mem _ _

theorem exists_generalReg {r : RegId} (hr : r.isGeneral = true) : ∃ i, generalReg o i = r := by
  obtain ⟨n, hn⟩ := List.get_of_mem ((mem_generals h).2 hr)
  exact ⟨.ofFin n, by rw [generalReg_eq_get]; exact hn⟩

theorem exists_pointerReg {r : RegId} (hr : r.isGeneral = false) : ∃ i, pointerReg o i = r := by
  obtain ⟨n, hn⟩ := List.get_of_mem ((mem_pointers h).2 hr)
  exact ⟨.ofFin n, by rw [pointerReg_eq_get]; exact hn⟩

end

/-! ### The resolver as a table -/

/-- The section column of R52's table, by the width bit and the index's top bit. -/
def tableSection (w high : Bool) : Section :=
  if w then if high then .p16 else .x16 else if high then .h8 else .l8

/-- The register column of R52's table, by the width bit, the index's top bit and its low bits. -/
def tableRegister (o : RegOrder) (w high : Bool) (low : BitVec 2) : RegId :=
  if w && high then pointerReg o low else generalReg o low

theorem tableSection_injective {w high w' high' : Bool}
    (h : tableSection w high = tableSection w' high') : w = w' ∧ high = high' := by
  revert w high w' high'; decide

/-- R52: the resolver is the table. -/
theorem resolveWith_cons (P : Params) (sel : BitVec 2) (high : Bool) (low : BitVec 2) :
    resolveWith P sel (low.cons high) =
      ⟨tableRegister P.regOrder sel[0] high low, tableSection sel[0] high⟩ := by
  have hhigh : (low.cons high)[2] = high := by revert low high; decide
  have hlow : (low.cons high).extractLsb' 0 2 = low := by revert low high; decide
  unfold resolveWith tableRegister tableSection
  rw [hhigh, hlow]
  cases sel[0] <;> cases high <;> rfl

/-- An index is its top bit and its two low bits. -/
theorem exists_cons (idx : BitVec 3) : ∃ (high : Bool) (low : BitVec 2), idx = low.cons high := by
  revert idx; decide

/-- An index 0 to 3 has a clear top bit. -/
theorem ofNat_eq_cons_false (i : Fin 4) :
    BitVec.ofNat 3 (i : Nat) = (BitVec.ofFin (w := 2) i).cons false := by
  revert i; decide

/-- The index `i + 4` is the index `i` with its top bit set. -/
theorem ofNat_add_four_eq_cons_true (i : Fin 4) :
    BitVec.ofNat 3 (i + 4 : Nat) = (BitVec.ofFin (w := 2) i).cons true := by
  revert i; decide

section
variable {P : Params} (h : P.wf = true)
include h

/-- R14: every entry of the table is legal. -/
theorem resolveWith_legal (sel : BitVec 2) (idx : BitVec 3) : (resolveWith P sel idx).legal = true := by
  obtain ⟨high, low, rfl⟩ := exists_cons idx
  rw [resolveWith_cons]
  have hg := isGeneral_generalReg h low
  have hp := isGeneral_pointerReg h low
  cases sel[0] <;> cases high <;> simp [tableRegister, tableSection, OperandRef.legal, hg, hp]

/-- R49: no register's section stands twice in the table. -/
theorem resolveWith_injective {sel sel' : BitVec 2} {idx idx' : BitVec 3}
    (heq : resolveWith P sel idx = resolveWith P sel' idx') : sel[0] = sel'[0] ∧ idx = idx' := by
  obtain ⟨high, low, rfl⟩ := exists_cons idx
  obtain ⟨high', low', rfl⟩ := exists_cons idx'
  rw [resolveWith_cons, resolveWith_cons] at heq
  obtain ⟨hreg, hsec⟩ := OperandRef.mk.inj heq
  obtain ⟨hw, rfl⟩ := tableSection_injective hsec
  refine ⟨hw, congrArg _ ?_⟩
  rw [hw] at hreg
  unfold tableRegister at hreg
  split at hreg
  · exact pointerReg_injective h hreg
  · exact generalReg_injective h hreg

/-- R14, R49: every legal reference stands in the table. -/
theorem exists_resolveWith {o : OperandRef} (ho : o.legal = true) :
    ∃ sel idx, resolveWith P sel idx = o := by
  obtain ⟨r, sec⟩ := o
  cases sec with
  | x16 =>
    obtain ⟨low, rfl⟩ := exists_generalReg h ho
    exact ⟨1#2, low.cons false, resolveWith_cons ..⟩
  | l8 =>
    obtain ⟨low, rfl⟩ := exists_generalReg h ho
    exact ⟨0#2, low.cons false, resolveWith_cons ..⟩
  | h8 =>
    obtain ⟨low, rfl⟩ := exists_generalReg h ho
    exact ⟨0#2, low.cons true, resolveWith_cons ..⟩
  | p16 =>
    obtain ⟨low, rfl⟩ := exists_pointerReg h (by simpa [OperandRef.legal] using ho)
    exact ⟨1#2, low.cons true, resolveWith_cons ..⟩

end

/-! ### An instruction's effect on the trace -/

/-- Everything an instruction can do when it answers a next state (R76, R85, R90): a skip advances, a
move without its second byte aborts, and a move with it transfers and is recorded. -/
theorem execWith_next {P : Params} {i : Instr} {s t : State} (h : execWith P i s = .next t) :
    (moveFields i = none ∧ t = (s.advance 1).finish) ∨
    ∃ sel reg rm, moveFields i = some (sel, reg, rm) ∧
      ((s.len ≤ (s.pc : Int) + 1 ∧ t = raiseMalformed .truncated s) ∨
       ((s.pc : Int) + 1 < s.len ∧
         ∃ x, transfer s.regs (operandsWith P sel reg rm).dst (operandsWith P sel reg rm).src = some x ∧
           t = moved s (operandsWith P sel reg rm) x)) := by
  rw [execWith_eq] at h
  cases hf : moveFields i with
  | none =>
    rw [hf] at h
    exact .inl ⟨rfl, (Host.Outcome.next.inj h).symm⟩
  | some f =>
    obtain ⟨sel, reg, rm⟩ := f
    rw [hf] at h
    refine .inr ⟨sel, reg, rm, rfl, ?_⟩
    by_cases hl : s.len ≤ (s.pc : Int) + 1
    · exact .inl ⟨hl, (Host.Outcome.next.inj ((moveWith_truncated P sel reg rm hl).symm.trans h)).symm⟩
    · obtain ⟨x, hx, hmove⟩ := moveWith_completes P sel reg rm (not_le.1 hl)
      exact .inr ⟨not_le.1 hl, x, hx, (Host.Outcome.next.inj (hmove.symm.trans h)).symm⟩

@[simp] theorem moved_trace (s : State) (r : TraceRecord) (x : RegFile) :
    (moved s r x).trace = s.trace ++ [r] := by simp [moved]

/-- R69: a completed move of a pass does not abort it. -/
theorem moved_phase_ne_aborted {s : State} (hs : s.phase = .scanning) (r : TraceRecord) (x : RegFile) :
    (moved s r x).phase ≠ .aborted := by
  rw [moved_eq hs]
  unfold movedState
  split <;> simp

/-- R73: the text is made of the trace alone. -/
theorem traceText_congr {s t : State} (h : t.trace = s.trace) : traceText t = traceText s := by
  rw [traceText, traceText, h]

/-- R73: a record appended to the trace appends its line to the text. -/
theorem traceText_append {s t : State} {r : TraceRecord} (h : t.trace = s.trace ++ [r]) :
    traceText t = traceText s ++ [render r] := by
  rw [traceText, traceText, h, List.map_append, List.map_singleton]

end Machine

end Sys2Proof
end

section
/-! SUPPORT. The statements on the encoding (spec/30_encoding.md), settled. -/

namespace Sys2Proof.Machine

/-- Settles O4: a well-formed instruction encodes to the bytes of a move or of a skip that hold it, and the
decoder reads those back. -/
theorem decodeOfEncodeIsTheInstruction : Obligations.DecodeOfEncodeIsTheInstruction := by
  intro P i rest hwf
  obtain ⟨b0, b1, hop, henc, rfl⟩ | ⟨b0, hop, henc, rfl⟩ := encodeWith_cases hwf
  · rw [henc]
    exact decodeWith_move hop b1 rest
  · rw [henc]
    exact decodeWith_skip hop rest

/-- Settles O5, by the two things the decoder can read. -/
theorem encodeOfDecodeIsTheBytes : Obligations.EncodeOfDecodeIsTheBytes := by
  intro P bytes rest i hdec
  obtain ⟨b0, b1, hop, rfl, rfl⟩ | ⟨b0, hop, rfl, rfl⟩ := decodeWith_ok hdec
  · exact ⟨wf_moveOf b0 b1, by rw [encodeWith_moveOf hop]; rfl⟩
  · exact ⟨wf_skipOf.2 hop, by rw [encodeWith_skipOf]; rfl⟩

/-- Settles O6: `g` and `p` are the two columns of the resolver's table, in the order of their indices. -/
theorem resolverFollowsTheRegisterOrder : Obligations.ResolverFollowsTheRegisterOrder := by
  intro P hP
  have hofFin : Function.Injective (BitVec.ofFin (w := 2)) := fun _ _ => BitVec.ofFin.inj
  refine ⟨fun i => generalReg P.regOrder (.ofFin i), fun i => pointerReg P.regOrder (.ofFin i),
    (generalReg_injective hP).comp hofFin, (pointerReg_injective hP).comp hofFin,
    fun _ => isGeneral_generalReg hP _, fun _ => isGeneral_pointerReg hP _,
    rfl, rfl, rfl, rfl, rfl, rfl, rfl, rfl, ?table, ?default⟩
  case table =>
    intro sel i
    rw [ofNat_eq_cons_false, ofNat_add_four_eq_cons_true, resolveWith_cons, resolveWith_cons]
    constructor <;> intro hw <;> simp [hw, tableRegister, tableSection]
  case default =>
    intro horder
    rw [horder]
    exact ⟨rfl, rfl⟩

/-- Settles O7, by the table: its entries are legal, differ, and are all the legal references. -/
theorem resolverAliasesNoRegister : Obligations.ResolverAliasesNoRegister :=
  fun _ hP => ⟨resolveWith_legal hP, fun _ _ _ _ => resolveWith_injective hP, fun _ => exists_resolveWith hP⟩

/-- Settles O45, by the cases of an instruction's effect: only a completed move appends to the trace, and
what it appends is the record that its text renders. -/
theorem theTextOutputGainsTheMovesLine : Obligations.TheTextOutputGainsTheMovesLine := by
  refine ⟨regName, sectionSuffix, by simp [regName], by simp [sectionSuffix], fun _ _ => rfl, ?_⟩
  intro i s t h
  rw [exec_eq_execWith] at h
  rw [destinationOf_eq, instrTextWith_eq]
  obtain ⟨hf, rfl⟩ | ⟨sel, reg, rm, hf, ⟨hl, rfl⟩ | ⟨hl, x, -, rfl⟩⟩ := execWith_next h <;> rw [hf]
  case inl =>
    have hkept : traceText (s.advance 1).finish = traceText s := traceText_congr (by simp)
    exact ⟨nofun, fun _ => ⟨hkept, rfl⟩, fun _ _ => hkept⟩
  case inr.inl =>
    exact ⟨fun _ _ hlt => absurd hl (not_le.2 hlt), nofun, fun _ _ => traceText_congr rfl⟩
  case inr.inr =>
    have htrace := moved_trace s (operandsWith Params.default sel reg rm) x
    refine ⟨?_, nofun, fun hs ha => absurd ha (moved_phase_ne_aborted hs _ x)⟩
    rintro _ ⟨⟩ -
    exact ⟨_, htrace, traceText_append htrace, rfl⟩

/-- Settles O2: each field is its byte divided by `2 ^ start` modulo `2 ^ width`, and the top field of a
byte needs no modulus. -/
theorem fieldsAreTheNamedBits : Obligations.FieldsAreTheNamedBits := by
  intro b0 b1
  refine ⟨?op, ?d, ?w, selOf_eq_append b0, ?mod, ?reg, ?rm⟩
  case op => exact (toNat_field b0 2 6).trans (by omega)
  case d => exact (toNat_field b0 1 1).trans (by omega)
  case w => exact (toNat_field b0 0 1).trans (by omega)
  case mod => exact (toNat_field b1 6 2).trans (by omega)
  case reg => exact (toNat_field b1 3 3).trans (by omega)
  case rm => exact (toNat_field b1 0 3).trans (by omega)

/-- Settles O3: with two bytes at hand the decoder reads a move or a skip, by the opcode field. -/
theorem firstByteAloneDecidesTheLength : Obligations.FirstByteAloneDecidesTheLength :=
  fun _ b0 b1 rest =>
    ⟨fun hop => ⟨moveOf b0 b1, decodeWith_move hop b1 rest⟩,
      fun hop => ⟨skipOf b0, decodeWith_skip hop (b1 :: rest)⟩⟩

end Sys2Proof.Machine
end

section
/-! SUPPORT. The rules of spec/40_dispatcher.md that the statements on the dispatcher turn on: what a step
makes of the stream's bytes at the cursor (R67, R68), what a skip and a completed move have in common (R69),
how a pass starts (R65), that `Inv` is kept (R72), and a pass as the loop over its bytes (R71). -/

namespace Sys2Proof.Machine

/-! ### The fetch at the stream's bytes -/

/-- The stream holds `bytes` from the cursor on: each lies below `len`, and the host supplied it (R28, R42). -/
def BytesAtCursor (s : State) (bytes : List Byte) : Prop :=
  ∀ j < bytes.length, ((s.pc + j : Nat) : Int) < s.len ∧ Memory.read s.mem (s.pc + j) = bytes[j]?

theorem memRead_of_bytesAtCursor {s : State} {bytes : List Byte} {j : Nat} {b : Byte}
    (h : BytesAtCursor s bytes) (hj : bytes[j]? = some b) : memRead s (s.pc + j) = .byte b := by
  obtain ⟨hlt, hread⟩ := h j (List.getElem?_eq_some_iff.1 hj).1
  exact memRead_byte.2 ⟨hlt, hread.trans hj⟩

section
variable {P : Params} {s : State} {b0 b1 : Byte} (hr : memRead s s.pc = .byte b0)
include hr

theorem fetchWith_skip (hop : opOf b0 ≠ P.moveOpcode) : fetchWith P s = .instr (skipOf b0) := by
  simp [fetchWith, hr, isMoveByte, hop]

theorem fetchWith_truncated (hop : opOf b0 = P.moveOpcode) (hl : s.len ≤ (s.pc : Int) + 1) :
    fetchWith P s = .truncatedMove := by
  simp [fetchWith, hr, isMoveByte, hop, hl]

theorem fetchWith_move (hop : opOf b0 = P.moveOpcode) (hr1 : memRead s (s.pc + 1) = .byte b1) :
    fetchWith P s = .instr (moveOf b0 b1) := by
  obtain ⟨hlt, -⟩ := memRead_byte.1 hr1
  have hl : ¬ s.len ≤ (s.pc : Int) + 1 := by omega
  simp [fetchWith, hr, isMoveByte, hop, hl, hr1]

end

/-- R67: the fetch reads the instruction that the decoder reads from the stream's bytes. -/
theorem fetchWith_of_decodeWith {P : Params} {s : State} {bytes rest : List Byte} {i : Instr}
    (h : BytesAtCursor s bytes) (hdec : decodeWith P bytes = .ok (i, rest)) :
    fetchWith P s = .instr i := by
  obtain ⟨b0, b1, hop, rfl, rfl⟩ | ⟨b0, hop, rfl, rfl⟩ := decodeWith_ok hdec
  · exact fetchWith_move (memRead_of_bytesAtCursor (j := 0) h rfl) hop
      (memRead_of_bytesAtCursor (j := 1) h rfl)
  · exact fetchWith_skip (memRead_of_bytesAtCursor (j := 0) h rfl) hop

/-- R67, R68: a step runs the instruction that the decoder reads from the stream's bytes. -/
theorem step_of_decode {s : State} {bytes rest : List Byte} {i : Instr} (hs : s.phase = .scanning)
    (h : BytesAtCursor s bytes) (hdec : decode bytes = .ok (i, rest)) : step s = exec i s := by
  rw [step_eq_stepWith, stepWith_instr hs (fetchWith_of_decodeWith h hdec), exec_eq_execWith]

theorem decodeTableWord_some {nbits w : Nat} {i : Instr} (h : decodeTableWord nbits w = some i) :
    ∃ rest, decode [(tableBytes nbits w).1, (tableBytes nbits w).2] = .ok (i, rest) := by
  unfold decodeTableWord at h
  split at h
  · cases h; exact ⟨_, by assumption⟩
  · cases h

/-- Entry 6: a placed word's two bytes are the stream's bytes at the cursor. -/
theorem bytesAtCursor_placeWord {s : State} (h : Memory.wf s.mem = true) (nbits w : Nat) :
    BytesAtCursor (placeWord s nbits w) [(tableBytes nbits w).1, (tableBytes nbits w).2] := by
  have hwf := write_wf s.mem s.pc (tableBytes nbits w).1 h
  intro j hj
  have hj : j = 0 ∨ j = 1 := by simp at hj; omega
  obtain rfl | rfl := hj
  · exact ⟨by simp [placeWord], by simp [placeWord, read_write _ _ _ _ hwf, read_write _ _ _ _ h]⟩
  · exact ⟨by simp [placeWord], by simp [placeWord, read_write _ _ _ _ hwf]⟩

/-! ### The three arms of a step (R68) -/

section
variable {P : Params} {s : State} {b0 b1 : Byte} (hs : s.phase = .scanning)
  (hr : memRead s s.pc = .byte b0)
include hs hr

theorem stepWith_skip (hop : opOf b0 ≠ P.moveOpcode) : stepWith P s = .next (skippedState s) := by
  rw [stepWith_instr hs (fetchWith_skip hr hop), ← skip_eq hs]
  rfl

theorem stepWith_truncated (hop : opOf b0 = P.moveOpcode) (hl : s.len ≤ (s.pc : Int) + 1) :
    stepWith P s = .next (truncatedState s) :=
  stepWith_truncatedMove hs (fetchWith_truncated hr hop hl)

theorem stepWith_move (hop : opOf b0 = P.moveOpcode) (hr1 : memRead s (s.pc + 1) = .byte b1) :
    ∃ x, transfer s.regs (operandsWith P (selOf b0) (regOf b1) (rmOf b1)).dst
        (operandsWith P (selOf b0) (regOf b1) (rmOf b1)).src = some x ∧
      stepWith P s = .next (movedState s (operandsWith P (selOf b0) (regOf b1) (rmOf b1)).dst
        (operandsWith P (selOf b0) (regOf b1) (rmOf b1)).src x) := by
  obtain ⟨hlt, -⟩ := memRead_byte.1 hr1
  obtain ⟨x, hx, hmove⟩ := moveWith_completes P (selOf b0) (regOf b1) (rmOf b1) (s := s) (by omega)
  refine ⟨x, hx, ?_⟩
  rw [stepWith_instr hs (fetchWith_move hr hop hr1), execWith_eq, moveFields_moveOf, ← moved_eq hs]
  exact hmove

end

/-- R54: the direction bit `d` says which field of a move names the destination. -/
theorem operandsWith_selOf (P : Params) (b0 : Byte) (reg rm : BitVec 3) :
    operandsWith P (selOf b0) reg rm =
      ⟨resolveWith P (selOf b0) (if dOf b0 = 1#1 then reg else rm),
        resolveWith P (selOf b0) (if dOf b0 = 1#1 then rm else reg)⟩ := by
  have hd : (selOf b0)[1] = true ↔ dOf b0 = 1#1 := by
    rw [selOf_eq_append]
    generalize dOf b0 = d
    generalize wOf b0 = w
    revert d w; decide
  simp only [operandsWith, hd]
  split
  · rfl
  · rfl

/-- What a skip and a completed move of a pass have in common (R69): the cursor goes forward and stays in
the stream, and the phase is Done exactly at the stream's end. -/
structure Advanced (s t : State) : Prop where
  mem      : t.mem = s.mem
  len      : t.len = s.len
  err      : t.err = s.err
  forward  : s.pc < t.pc
  inStream : (t.pc : Int) ≤ t.len
  phase    : t.phase = if t.len ≤ (t.pc : Int) then .done else .scanning

theorem advanced_skippedState {s : State} (hlt : (s.pc : Int) < s.len) : Advanced s (skippedState s) where
  mem := rfl
  len := rfl
  err := rfl
  forward := Nat.lt_succ_self s.pc
  inStream := by simp only [skippedState]; omega
  phase := rfl

theorem advanced_movedState {s : State} (hlt : (s.pc : Int) + 1 < s.len) (dst src : OperandRef)
    (x : RegFile) : Advanced s (movedState s dst src x) where
  mem := rfl
  len := rfl
  err := rfl
  forward := by simp [movedState]
  inStream := by simp only [movedState]; omega
  phase := rfl

/-- R69, R90: a step of a pass advances, or it aborts at a move's opcode byte that ends the stream. -/
theorem stepWith_advanced_or_truncated {P : Params} {s t : State} (hs : s.phase = .scanning)
    (h : stepWith P s = .next t) :
    Advanced s t ∨
    (t = truncatedState s ∧ (s.pc : Int) = s.len - 1 ∧
      (Memory.read s.mem s.pc).map opOf = some P.moveOpcode) := by
  obtain ⟨b0, hlt, hb, ⟨-, rfl⟩ | ⟨hm, hl, rfl⟩ | ⟨-, hl, _, x, -, -, rfl⟩⟩ := stepWith_scanning hs h
  · rw [skip_eq hs]
    exact .inl (advanced_skippedState hlt)
  · exact .inr ⟨rfl, by omega, by rw [hb, Option.map_some, isMoveByte_iff.1 hm]⟩
  · rw [moved_eq hs]
    exact .inl (advanced_movedState hl _ _ x)

/-! ### The start of a pass -/

section
variable {P : Params} {r : StartRequest} {s t : State}

theorem startWith_empty (hr : lenInRange P r.len = true) (hb : r.len ≤ (r.bytes.length : Int))
    (hl : r.len ≤ 0) : startWith P r s = .next (raiseMalformed .empty (loadPass r s)) := by
  simp [startWith, hr, not_lt.2 hb, hl]

theorem startWith_positive (hr : lenInRange P r.len = true) (hb : r.len ≤ (r.bytes.length : Int))
    (hl : 0 < r.len) : startWith P r s = .next { loadPass r s with phase := .scanning } := by
  simp [startWith, hr, not_lt.2 hb, not_le.2 hl]

theorem startWith_next_positive (h : startWith P r s = .next t) (hl : 0 < r.len) :
    r.len ≤ (r.bytes.length : Int) ∧ t = { loadPass r s with phase := .scanning } := by
  obtain ⟨-, hb, ⟨hle, -⟩ | ⟨-, ht⟩⟩ := startWith_next h
  · exact absurd hl (not_lt.2 hle)
  · exact ⟨hb, ht⟩

theorem startWith_ne_fault (f : Fault) : startWith P r s ≠ .fault f := by
  unfold startWith
  split
  · nofun
  · split
    · nofun
    · split
      · nofun
      · nofun

end

/-- R66: outside phase Scanning, with no start to come, a step changes nothing. -/
theorem stepWith_noStart {P : Params} {s : State} (hs : s.phase ≠ .scanning) (hh : s.hostStarts = []) :
    stepWith P s = .next s := by
  rw [stepWith_eq_awaitStart hs, awaitStart, hh]

/-! ### No instruction stops -/

/-- R75: an instruction answers a next state on every state. -/
theorem execWith_goesOn (P : Params) (i : Instr) (s : State) : ∃ t, execWith P i s = .next t := by
  rw [execWith_eq]
  cases moveFields i with
  | none => exact ⟨_, rfl⟩
  | some f =>
    by_cases hl : s.len ≤ (s.pc : Int) + 1
    · exact ⟨_, moveWith_truncated P f.1 f.2.1 f.2.2 hl⟩
    · obtain ⟨x, -, hmove⟩ := moveWith_completes P f.1 f.2.1 f.2.2 (not_le.1 hl)
      exact ⟨_, hmove⟩

/-- R92: no step raises `InvariantViolation`. -/
theorem stepWith_ne_invariantViolation (P : Params) (s : State) :
    stepWith P s ≠ .fault .invariantViolation := by
  by_cases hs : s.phase = .scanning
  case pos =>
    cases hf : fetchWith P s with
    | instr i =>
      obtain ⟨t, ht⟩ := execWith_goesOn P i s
      rw [stepWith_instr hs hf, ht]
      nofun
    | truncatedMove => rw [stepWith_truncatedMove hs hf]; nofun
    | outsideStream => rw [stepWith_outsideStream hs hf]; nofun
    | notSupplied => rw [stepWith_notSupplied hs hf]; nofun
  case neg =>
    cases hh : s.hostStarts with
    | nil => rw [stepWith_noStart hs hh]; nofun
    | cons r later =>
      rw [stepWith_takesStart hs hh]
      exact startWith_ne_fault _

/-! ### The invariants -/

theorem inv_construct (P : Params) (init : RegFile) : Inv P (State.construct init) where
  pcBound := by simp [State.construct]
  idle := fun _ => ⟨rfl, rfl⟩
  scanning := nofun
  done := nofun
  abortedIff := by simp [State.construct]
  empty := nofun
  truncated := nofun
  noInvariant := nofun
  memCanonical := rfl
  bufferCovers := by simp [State.construct]

theorem ofBytes_covers {bytes : List Byte} {len : Int} (h : len ≤ (bytes.length : Int)) :
    ∀ i < len.toNat, (Memory.read (Memory.ofBytes 0 bytes) i).isSome = true := by
  intro i hi
  rw [read_ofBytes_zero, List.getElem?_eq_getElem (by omega), Option.isSome_some]

/-- R65, R42: a start brings the invariants about, whatever the state it finds. -/
theorem inv_startWith {P : Params} {r : StartRequest} {s t : State} (h : startWith P r s = .next t) :
    Inv P t := by
  obtain ⟨-, hb, ⟨hl, rfl⟩ | ⟨hl, rfl⟩⟩ := startWith_next h
  · exact {
      pcBound := by simp
      idle := nofun
      scanning := nofun
      done := nofun
      abortedIff := by simp [MalformedCause.code]
      empty := fun _ => ⟨rfl, hl⟩
      truncated := nofun
      noInvariant := nofun
      memCanonical := ofBytes_wf 0 r.bytes
      bufferCovers := ofBytes_covers hb }
  · exact {
      pcBound := by simp
      idle := nofun
      scanning := fun _ => hl
      done := nofun
      abortedIff := by simp
      empty := nofun
      truncated := nofun
      noInvariant := nofun
      memCanonical := ofBytes_wf 0 r.bytes
      bufferCovers := ofBytes_covers hb }

section
variable {P : Params} {s t : State} (hi : Inv P s)
include hi

theorem err_none_of_scanning (hs : s.phase = .scanning) : s.err = .none := by
  by_contra hne
  have ha := hi.abortedIff.2 hne
  simp [hs] at ha

/-- R69, R72: a skip and a completed move keep the invariants. -/
theorem inv_of_advanced (hs : s.phase = .scanning) (ha : Advanced s t) : Inv P t := by
  obtain ⟨hmem, hlen, herr, hfwd, hin, hphase⟩ := ha
  rw [err_none_of_scanning hi hs] at herr
  have hscan := hi.scanning hs
  exact {
    pcBound := by omega
    idle := by rw [hphase]; split <;> nofun
    scanning := by rw [hphase]; split <;> [nofun; (intro; omega)]
    done := by rw [hphase]; split <;> [exact fun _ => ⟨by omega, by omega, herr⟩; nofun]
    abortedIff := by rw [hphase, herr]; split <;> simp
    empty := by simp [herr]
    truncated := by simp [herr]
    noInvariant := by simp [herr]
    memCanonical := hmem ▸ hi.memCanonical
    bufferCovers := by rw [hmem, hlen]; exact hi.bufferCovers }

/-- R90, R72: the abort of a truncated move keeps the invariants. -/
theorem inv_truncatedState (hpc : (s.pc : Int) = s.len - 1)
    (hop : (Memory.read s.mem s.pc).map opOf = some P.moveOpcode) : Inv P (truncatedState s) where
  pcBound := hi.pcBound
  idle := nofun
  scanning := nofun
  done := nofun
  abortedIff := by simp [truncatedState]
  empty := nofun
  truncated := fun _ => ⟨hpc, hop⟩
  noInvariant := nofun
  memCanonical := hi.memCanonical
  bufferCovers := hi.bufferCovers

end

/-- R72: every step keeps the invariants. -/
theorem inv_stepWith {P : Params} {s t : State} (hi : Inv P s) (h : stepWith P s = .next t) : Inv P t := by
  by_cases hs : s.phase = .scanning
  case pos =>
    obtain ha | ⟨rfl, hpc, hop⟩ := stepWith_advanced_or_truncated hs h
    · exact inv_of_advanced hi hs ha
    · exact inv_truncatedState hi hpc hop
  case neg =>
    obtain ⟨-, rfl⟩ | ⟨_, _, -, hst⟩ := stepWith_waiting hs h
    · exact hi
    · exact inv_startWith hst

/-- R42: under the invariants every index of the stream reads as a byte. -/
theorem exists_memRead_byte {P : Params} {s : State} (hi : Inv P s) {i : Nat} (h : (i : Int) < s.len) :
    ∃ b, memRead s i = .byte b := by
  obtain ⟨b, hb⟩ := Option.isSome_iff_exists.1 (hi.bufferCovers i (by omega))
  exact ⟨b, memRead_byte.2 ⟨h, hb⟩⟩

/-- R75: under the invariants a step of a pass answers a next state. -/
theorem stepWith_goesOn {P : Params} {s : State} (hi : Inv P s) (hs : s.phase = .scanning) :
    ∃ t, stepWith P s = .next t := by
  obtain ⟨b0, hr⟩ := exists_memRead_byte hi (hi.scanning hs)
  by_cases hop : opOf b0 = P.moveOpcode
  case neg => exact ⟨_, stepWith_skip hs hr hop⟩
  case pos =>
    by_cases hl : s.len ≤ (s.pc : Int) + 1
    · exact ⟨_, stepWith_truncated hs hr hop hl⟩
    · obtain ⟨b1, hr1⟩ := exists_memRead_byte hi (i := s.pc + 1) (by omega)
      obtain ⟨x, -, hstep⟩ := stepWith_move hs hr hop hr1
      exact ⟨_, hstep⟩

/-! ### Every pass ends -/

theorem run_one {P : Params} {s t : State} (h : stepWith P s = .next t) :
    (coreWith P).run 1 s = .next t :=
  run_succ P 0 h

/-- R71: a pass ends within the bytes that are left, since no step of it leaves the cursor in place. -/
theorem exists_run_passEnded {P : Params} (n : Nat) {s : State} (hi : Inv P s)
    (hs : s.phase = .scanning) (hn : s.len - s.pc ≤ n) :
    ∃ (k : Nat) (t : State), (k : Int) ≤ s.len - s.pc ∧ (coreWith P).run k s = .next t ∧
      passEnded t = true := by
  induction n generalizing s with
  | zero =>
    have hscan := hi.scanning hs
    omega
  | succ n ih =>
    have hscan := hi.scanning hs
    obtain ⟨t, hstep⟩ := stepWith_goesOn hi hs
    obtain ⟨-, hlen, -, hfwd, -, hphase⟩ | ⟨rfl, -, -⟩ := stepWith_advanced_or_truncated hs hstep
    · by_cases hend : t.len ≤ (t.pc : Int)
      · rw [if_pos hend] at hphase
        exact ⟨1, t, by omega, run_one hstep, by simp [passEnded, hphase]⟩
      · rw [if_neg hend] at hphase
        obtain ⟨k, u, hk, hrun, hu⟩ := ih (inv_stepWith hi hstep) hphase (by omega)
        exact ⟨k + 1, u, by omega, (run_succ P k hstep).trans hrun, hu⟩
    · exact ⟨1, _, by omega, run_one hstep, rfl⟩

/-! ### A pass as the loop over its bytes -/

section
variable {P : Params} {b0 : Byte}

theorem runStream_skip (hop : opOf b0 ≠ P.moveOpcode) (rest : List Byte) (x : RegFile) :
    runStream P (b0 :: rest) x =
      { runStream P rest x with skips := (runStream P rest x).skips + 1 } := by
  cases rest with
  | nil => simp [runStream, isMoveByte, hop]
  | cons b1 rest => simp [runStream, isMoveByte, hop]

theorem runStream_truncated (hop : opOf b0 = P.moveOpcode) (x : RegFile) :
    runStream P [b0] x = ⟨x, [], 0, 0, true⟩ := by
  simp [runStream, isMoveByte, hop]

theorem runStream_move (hop : opOf b0 = P.moveOpcode) (b1 : Byte) (rest : List Byte) {x y : RegFile}
    (hy : transfer x (operandsWith P (selOf b0) (regOf b1) (rmOf b1)).dst
      (operandsWith P (selOf b0) (regOf b1) (rmOf b1)).src = some y) :
    runStream P (b0 :: b1 :: rest) x =
      { runStream P rest y with
        trace := operandsWith P (selOf b0) (regOf b1) (rmOf b1) :: (runStream P rest y).trace
        moves := (runStream P rest y).moves + 1 } := by
  simp [runStream, isMoveByte, hop, hy]

end

/-- A pass of which exactly `bytes` are left: they stand at the cursor and reach to the stream's end, and
the phase is Done when there are none (R69). -/
structure Remaining (s : State) (bytes : List Byte) : Prop where
  cursor : (s.pc : Int) + bytes.length = s.len
  held   : BytesAtCursor s bytes
  phase  : s.phase = if bytes = [] then .done else .scanning

/-- Bytes that a step went past are no longer left. -/
theorem remaining_of_advanced {s t : State} {gone rest : List Byte} (h : Remaining s (gone ++ rest))
    (ha : Advanced s t) (hpc : t.pc = s.pc + gone.length) : Remaining t rest := by
  obtain ⟨hcursor, hheld, -⟩ := h
  obtain ⟨hmem, hlen, -, -, -, hphase⟩ := ha
  rw [List.length_append] at hcursor
  constructor
  case cursor => omega
  case held =>
    intro j hj
    obtain ⟨hlt, hread⟩ := hheld (gone.length + j) (by rw [List.length_append]; omega)
    rw [hmem, hlen, hpc, Nat.add_assoc]
    refine ⟨hlt, hread.trans ?_⟩
    rw [List.getElem?_append_right (Nat.le_add_right _ _), Nat.add_sub_cancel_left]
  case phase =>
    have hend : t.len ≤ (t.pc : Int) ↔ rest = [] := by
      rw [← List.length_eq_zero_iff]
      omega
    simp only [hphase, hend]

section
variable {s : State} {bytes : List Byte} {b0 b1 : Byte}

theorem scanning_of_remaining (h : Remaining s (b0 :: bytes)) : s.phase = .scanning := by
  simpa using h.phase

theorem remaining_skippedState (h : Remaining s (b0 :: bytes)) : Remaining (skippedState s) bytes := by
  have hcursor := h.cursor
  rw [List.length_cons] at hcursor
  exact remaining_of_advanced (gone := [b0]) h (advanced_skippedState (by omega)) rfl

theorem remaining_movedState (h : Remaining s (b0 :: b1 :: bytes)) (dst src : OperandRef) (x : RegFile) :
    Remaining (movedState s dst src x) bytes := by
  have hcursor := h.cursor
  rw [List.length_cons, List.length_cons] at hcursor
  exact remaining_of_advanced (gone := [b0, b1]) h (advanced_movedState (by omega) dst src x) rfl

end

/-- R65: a start of positive length leaves the whole of its stream. -/
theorem remaining_of_start {P : Params} {r : StartRequest} {s t : State} (h : startWith P r s = .next t)
    (hpos : 0 < r.len) : Remaining t (r.bytes.take r.len.toNat) := by
  obtain ⟨hb, rfl⟩ := startWith_next_positive h hpos
  have hlength : (r.bytes.take r.len.toNat).length = r.len.toNat := by
    rw [List.length_take]
    omega
  constructor
  case cursor => simp only [hlength, loadPass_pc, loadPass_len]; omega
  case held =>
    intro j hj
    rw [hlength] at hj
    exact ⟨by simp only [loadPass_pc, loadPass_len]; omega, by simp [List.getElem?_take_of_lt hj]⟩
  case phase =>
    rw [if_neg]
    intro hnil
    rw [hnil, List.length_nil] at hlength
    omega

/-- `t` is what `e` makes of a pass that stands at `s` (R71, R74, R91). -/
structure EndsAs (e : StreamEnd) (s t : State) : Prop where
  regs  : t.regs = e.regs
  trace : t.trace = s.trace ++ e.trace
  pc    : t.pc = s.pc + (e.skips + 2 * e.moves)
  phase : t.phase = if e.truncated then .aborted else .done
  err   : t.err = if e.truncated then .malformedTruncated else s.err
  whole : e.truncated = false → (t.pc : Int) = s.len

section
variable {e : StreamEnd} {s t : State}

theorem endsAs_skip (h : EndsAs e (skippedState s) t) : EndsAs { e with skips := e.skips + 1 } s t where
  regs := h.regs
  trace := h.trace
  pc := by rw [h.pc]; simp only [skippedState]; omega
  phase := h.phase
  err := h.err
  whole := h.whole

theorem endsAs_move {r : TraceRecord} {x : RegFile} (h : EndsAs e (movedState s r.dst r.src x) t) :
    EndsAs { e with trace := r :: e.trace, moves := e.moves + 1 } s t where
  regs := h.regs
  trace := by rw [h.trace]; simp [movedState]
  pc := by rw [h.pc]; simp only [movedState]; omega
  phase := h.phase
  err := h.err
  whole := h.whole

end

theorem steps_skip (e : StreamEnd) : { e with skips := e.skips + 1 }.steps = e.steps + 1 := by
  simp only [StreamEnd.steps]
  omega

theorem steps_move (e : StreamEnd) (trace : List TraceRecord) :
    { e with trace := trace, moves := e.moves + 1 }.steps = e.steps + 1 := by
  simp only [StreamEnd.steps]
  omega

/-- R71, R91: from where a pass stands, the machine runs the loop over the bytes that are left, one step
for each skip, each move and the abort. -/
theorem run_steps_of_remaining (P : Params) {s : State} {bytes : List Byte} (h : Remaining s bytes) :
    ∃ t, (coreWith P).run (runStream P bytes s.regs).steps s = .next t ∧
      EndsAs (runStream P bytes s.regs) s t := by
  match bytes with
  | [] =>
    have hcursor := h.cursor
    exact ⟨s, rfl, {
      regs := rfl
      trace := (List.append_nil _).symm
      pc := rfl
      phase := h.phase
      err := rfl
      whole := fun _ => by simpa using hcursor }⟩
  | b0 :: rest =>
    have hs := scanning_of_remaining h
    have hr : memRead s s.pc = .byte b0 := memRead_of_bytesAtCursor (j := 0) h.held rfl
    by_cases hop : opOf b0 = P.moveOpcode
    case neg =>
      obtain ⟨t, hrun, hend⟩ := run_steps_of_remaining P (remaining_skippedState h)
      rw [runStream_skip hop, steps_skip, run_succ P _ (stepWith_skip hs hr hop)]
      exact ⟨t, hrun, endsAs_skip hend⟩
    case pos =>
      match rest with
      | [] =>
        have hl : s.len ≤ (s.pc : Int) + 1 := h.cursor.ge
        rw [runStream_truncated hop]
        exact ⟨truncatedState s, run_one (stepWith_truncated hs hr hop hl), {
          regs := rfl
          trace := (List.append_nil _).symm
          pc := rfl
          phase := rfl
          err := rfl
          whole := nofun }⟩
      | b1 :: rest =>
        have hr1 : memRead s (s.pc + 1) = .byte b1 := memRead_of_bytesAtCursor (j := 1) h.held rfl
        obtain ⟨x, hx, hstep⟩ := stepWith_move hs hr hop hr1
        obtain ⟨t, hrun, hend⟩ := run_steps_of_remaining P (remaining_movedState h _ _ x)
        rw [runStream_move hop b1 rest hx, steps_move, run_succ P _ hstep]
        exact ⟨t, hrun, endsAs_move hend⟩
termination_by bytes.length

end Sys2Proof.Machine
end

section
/-! SUPPORT. The statements on the dispatcher (spec/40_dispatcher.md), settled. -/

namespace Sys2Proof.Machine

/-- Settles O39, by the cases of a step: it advances, aborts a truncated move, takes a start, or waits. -/
theorem stepKeepsTheInvariants : Obligations.StepKeepsTheInvariants :=
  ⟨fun _ _ _ => inv_stepWith, fun s _ hi h => inv_stepWith hi ((step_eq_stepWith s).symm.trans h)⟩

/-- Settles O20, by the three arms; the direction bit chooses the move's operands. -/
theorem stepFollowsTheDispatcher : Obligations.StepFollowsTheDispatcher := by
  intro P s b0 hs hlt hb
  have hr : memRead s s.pc = .byte b0 := memRead_byte.2 ⟨hlt, hb⟩
  refine ⟨stepWith_skip hs hr, stepWith_truncated hs hr, ?_⟩
  intro hop hl b1 hb1
  have hr1 : memRead s (s.pc + 1) = .byte b1 := memRead_byte.2 ⟨by omega, hb1⟩
  obtain ⟨x, hx, hstep⟩ := stepWith_move hs hr hop hr1
  rw [operandsWith_selOf] at hx hstep
  exact ⟨_, _, x, rfl, rfl, hx, hstep⟩

/-- Settles O22: the placed bytes stand at the cursor, so the step runs what the decoder reads there. -/
theorem placedTableWordRuns : Obligations.PlacedTableWordRuns := by
  intro s nbits w i hwf hdec
  obtain ⟨rest, hrest⟩ := decodeTableWord_some hdec
  exact step_of_decode rfl (bytesAtCursor_placeWord hwf nbits w) hrest

/-- Settles O23: a step that takes a start or aborts does not enter Done, so the step advanced a pass. -/
theorem nothingHappensUntilStart : Obligations.NothingHappensUntilStart := by
  refine ⟨fun s hs hh => (step_eq_stepWith s).trans (stepWith_noStart hs hh), ?_⟩
  intro s t h hdone hne
  rw [step_eq_stepWith] at h
  by_cases hs : s.phase = .scanning
  case pos =>
    refine ⟨hs, ?_⟩
    obtain ha | ⟨rfl, -⟩ := stepWith_advanced_or_truncated hs h
    · by_contra hl
      have hphase := ha.phase
      simp [hl, hdone] at hphase
    · cases hdone
  case neg =>
    obtain ⟨-, rfl⟩ | ⟨_, _, -, hst⟩ := stepWith_waiting hs h
    · exact absurd hdone hne
    · obtain ⟨hp, -⟩ | ⟨hp, -⟩ := startWith_phase_err hst
      · cases hdone.symm.trans hp
      · cases hdone.symm.trans hp

/-- Settles O24: the start's writes for either sign of the length; a pass keeps the starts to come. -/
theorem startBeginsAPass : Obligations.StartBeginsAPass := by
  intro P s
  constructor
  · intro _ r hb hr
    exact ⟨Memory.ofBytes 0 r.bytes, read_ofBytes_zero r.bytes, startWith_empty hr hb,
      startWith_positive hr hb⟩
  · intro hs t h
    obtain ⟨-, -, -, hstarts⟩ := theBufferIsFixedDuringAPass P s t hs h
    exact hstarts

/-- Settles O30: a step that did not abort advanced. -/
theorem doneExactlyWhenExhausted : Obligations.DoneExactlyWhenExhausted := by
  intro P s t hs h hne
  obtain ⟨-, -, -, -, hin, hphase⟩ | ⟨rfl, -⟩ := stepWith_advanced_or_truncated hs h
  · by_cases hl : t.len ≤ (t.pc : Int)
    · rw [if_pos hl] at hphase
      exact ⟨.inl hphase, iff_of_true hphase hl, hin, fun _ => le_antisymm hin hl⟩
    · rw [if_neg hl] at hphase
      have hnot : t.phase ≠ .done := by simp [hphase]
      exact ⟨.inr hphase, iff_of_false hnot hl, hin, fun hdone => absurd hdone hnot⟩
  · exact absurd rfl hne

/-- Settles O34: a move of any form transfers or aborts, and nothing else could raise the fault. -/
theorem noInstructionStopsTheMachine : Obligations.NoInstructionStopsTheMachine :=
  ⟨execWith_goesOn, stepWith_ne_invariantViolation⟩

/-- Settles O40: the invariants supply every byte that the step reads. -/
theorem aStepOfAPassAlwaysGoesOn : Obligations.AStepOfAPassAlwaysGoesOn :=
  fun _ _ => stepWith_goesOn

/-- Settles O41: a started pass meets the invariants, and each step uses up a byte that is left. -/
theorem everyPassEnds : Obligations.EveryPassEnds := by
  intro P
  have hends : ∀ s : State, Inv P s → s.phase = .scanning →
      ∃ (k : Nat) (t : State), (k : Int) ≤ s.len - s.pc ∧ (coreWith P).run k s = .next t ∧
        passEnded t = true :=
    fun s hi hs => exists_run_passEnded (s.len - s.pc).toNat hi hs (Int.self_le_toNat _)
  refine ⟨hends, ?_⟩
  intro r s t0 h
  have hi : Inv P t0 := inv_startWith h
  obtain ⟨-, -, ⟨-, rfl⟩ | ⟨hl, rfl⟩⟩ := startWith_next h
  · exact ⟨0, _, by simp, rfl, rfl⟩
  · obtain ⟨k, t, hk, hrun, hend⟩ := hends _ hi rfl
    simp only [loadPass_len, loadPass_pc] at hk
    exact ⟨k, t, by omega, hrun, hend⟩

/-- Settles O42: at the start the whole stream is left. -/
theorem aPassIsTheLoopOverItsStream : Obligations.APassIsTheLoopOverItsStream := by
  intro P r s t0 e h hpos he
  obtain ⟨t, hrun, hend⟩ := run_steps_of_remaining P (remaining_of_start h hpos)
  rw [startWith_regs h, ← he] at hrun hend
  obtain ⟨-, rfl⟩ := startWith_next_positive h hpos
  obtain ⟨hregs, htrace, hpc, hphase, herr, hwhole⟩ := hend
  rw [loadPass_trace, List.nil_append] at htrace
  rw [loadPass_pc, Nat.zero_add] at hpc
  rw [loadPass_len] at hwhole
  refine ⟨t, hrun, hregs, htrace, hpc, hphase, herr, fun hnot => ?_⟩
  have hlen := hwhole hnot
  omega

/-- Settles O21: the step runs what the decoder reads at the cursor. -/
theorem stepRunsTheDecodedInstruction : Obligations.StepRunsTheDecodedInstruction :=
  fun _ _ _ hs hdec hbytes => step_of_decode hs hbytes hdec

/-- Settles O26, from the parametric step at the defaults. -/
theorem aWaitingStepTakesTheNextStart : Obligations.AWaitingStepTakesTheNextStart :=
  fun s _ _ hs hh => (step_eq_stepWith s).trans (stepWith_takesStart hs hh)

/-- Settles O38: at construction nothing has been read, written or started. -/
theorem constructionMeetsTheInvariants : Obligations.ConstructionMeetsTheInvariants :=
  fun P => ⟨inv_construct P, inv_construct P _⟩

end Sys2Proof.Machine
end

section
/-! SUPPORT. The rules of spec/41_mov.md that the statements on the move turn on: what a section write and a
transfer leave (R16, R77), what a completed move leaves (R76), and which words have one pair of operands (R83). -/

namespace Sys2Proof.Machine

/-! ### Section reads and writes -/

theorem isByte_iff {c : Section} : c.isByte = true ↔ c = .l8 ∨ c = .h8 := by
  cases c <;> decide

theorem isByte_eq_false_iff {c : Section} : c.isByte = false ↔ c = .x16 ∨ c = .p16 := by
  cases c <;> decide

/-- R15: a section's value is made of its own register alone. -/
theorem secRead_congr {x y : RegFile} {o : OperandRef} (h : y.get o.reg = x.get o.reg) :
    secRead y o = secRead x o := by
  rw [secRead, secRead, h]

/-- R15, R16: a section reads back what was written to it. -/
theorem secRead_secWrite {x y : RegFile} {o : OperandRef} {v : SecVal} (h : secWrite x o v = some y) :
    secRead y o = v := by
  obtain ⟨r, c⟩ := o
  cases c <;> cases v <;> cases h <;> simp [secRead]

/-- R16: a section write leaves every other register alone. -/
theorem get_secWrite_other {x y : RegFile} {o : OperandRef} {v : SecVal} (h : secWrite x o v = some y)
    {q : RegId} (hq : q ≠ o.reg) : y.get q = x.get q := by
  obtain ⟨r, c⟩ := o
  cases c <;> cases v <;> cases h <;> exact get_set_other x _ hq

/-- R16, R17: a byte write leaves every other byte of the register file alone. -/
theorem secRead_secWrite_otherByte {x y : RegFile} {dst o : OperandRef} {v : SecVal}
    (h : secWrite x dst v = some y) (hdst : dst.sec.isByte = true) (ho : o.sec.isByte = true)
    (hne : o ≠ dst) : secRead y o = secRead x o := by
  by_cases hr : o.reg = dst.reg
  case neg => exact secRead_congr (get_secWrite_other h hr)
  case pos =>
    obtain ⟨r, c⟩ := dst
    obtain ⟨q, c'⟩ := o
    obtain rfl : q = r := hr
    obtain rfl | rfl := isByte_iff.1 hdst <;> obtain rfl | rfl := isByte_iff.1 ho
    · exact absurd rfl hne
    · cases v <;> cases h
      exact secRead_high_setLow ..
    · cases v <;> cases h
      exact secRead_low_setHigh ..
    · exact absurd rfl hne

/-! ### The transfer -/

/-- R77: a byte destination takes the source section. -/
theorem transfer_byte (x : RegFile) {dst : OperandRef} (h : dst.sec.isByte = true) (src : OperandRef) :
    transfer x dst src = secWrite x dst (secRead x src) := if_pos h

/-- R77: a word destination takes all 16 bits of the source register. -/
theorem transfer_word (x : RegFile) {dst : OperandRef} (h : dst.sec.isByte = false) (src : OperandRef) :
    transfer x dst src = some (x.set dst.reg (x.get src.reg)) := by
  obtain ⟨r, c⟩ := dst
  obtain rfl | rfl := isByte_eq_false_iff.1 h
  · rfl
  · rfl

/-- R77: a byte destination with a word source has no value. -/
theorem transfer_byte_word (x : RegFile) {dst src : OperandRef} (hdst : dst.sec.isByte = true)
    (hsrc : src.sec.isByte = false) : transfer x dst src = none := by
  obtain ⟨r, c⟩ := dst
  obtain ⟨q, c'⟩ := src
  obtain rfl | rfl := isByte_iff.1 hdst <;> obtain rfl | rfl := isByte_eq_false_iff.1 hsrc <;> rfl

theorem transfer_eq_none_iff (x : RegFile) (dst src : OperandRef) :
    transfer x dst src = none ↔ dst.sec.isByte = true ∧ src.sec.isByte = false := by
  refine ⟨fun h => ?_, fun h => transfer_byte_word x h.1 h.2⟩
  cases hdst : dst.sec.isByte with
  | false => simp [transfer_word x hdst] at h
  | true =>
    cases hsrc : src.sec.isByte with
    | false => exact ⟨rfl, rfl⟩
    | true =>
      obtain ⟨y, hy⟩ := transfer_isSome x (hdst.trans hsrc.symm)
      cases h.symm.trans hy

/-- R77: a transfer of a section onto itself changes nothing. -/
theorem transfer_self (x : RegFile) (o : OperandRef) : transfer x o o = some x := by
  obtain ⟨r, c⟩ := o
  cases c <;> simp [transfer, secWrite, secRead, Section.isByte, RegFile.setLow, RegFile.setHigh]

/-- R84: a transfer from one half of a register to the other leaves the source byte in both. -/
theorem transfer_otherHalf (x : RegFile) (r : RegId) (high : Bool) :
    ∃ (v : Byte) (y : RegFile), secRead x ⟨r, tableSection false high⟩ = .byte v ∧
      transfer x ⟨r, tableSection false !high⟩ ⟨r, tableSection false high⟩ = some y ∧
      y.get r = v ++ v := by
  cases high with
  | false => exact ⟨lowByte (x.get r), x.setHigh r (lowByte (x.get r)), rfl, rfl, get_setHigh_same ..⟩
  | true => exact ⟨highByte (x.get r), x.setLow r (highByte (x.get r)), rfl, rfl, get_setLow_same ..⟩

/-! ### The operands of a move -/

/-- R49: the width bit is all that the resolver takes from the selector. -/
theorem resolveWith_congr (P : Params) {sel sel' : BitVec 2} (h : sel[0] = sel'[0]) (idx : BitVec 3) :
    resolveWith P sel idx = resolveWith P sel' idx := by
  rw [resolveWith, resolveWith, h]

/-- R49, R52: one reference is one width and one index. -/
theorem resolveWith_eq_iff {P : Params} (hP : P.wf = true) {sel sel' : BitVec 2} {idx idx' : BitVec 3} :
    resolveWith P sel idx = resolveWith P sel' idx' ↔ sel[0] = sel'[0] ∧ idx = idx' := by
  refine ⟨resolveWith_injective hP, ?_⟩
  rintro ⟨hw, rfl⟩
  exact resolveWith_congr P hw idx

/-- R46: bit 0 of the selector is `w`. -/
theorem selOf_width_eq_iff {b0 b0' : Byte} : (selOf b0)[0] = (selOf b0')[0] ↔ wOf b0 = wOf b0' := by
  rw [selOf_eq_append, selOf_eq_append]
  generalize dOf b0 = d, dOf b0' = d', wOf b0 = w, wOf b0' = w'
  revert d d' w w'; decide

/-- R84: the indices `i` and `i + 4` differ in their top bit alone. -/
theorem cons_add_four (high : Bool) (low : BitVec 2) : low.cons high + 4#3 = low.cons !high := by
  revert high low; decide

/-- R51: in the byte forms the index's top bit chooses the half of a general-purpose register. -/
theorem resolve_byte_cons (high : Bool) (low : BitVec 2) :
    resolve 0b00#2 (low.cons high) = ⟨generalReg Params.default.regOrder low, tableSection false high⟩ :=
  resolveWith_cons Params.default 0b00#2 high low

/-- R54: equal fields name equal operands. -/
theorem operandsWith_same (P : Params) (sel : BitVec 2) (i : BitVec 3) :
    (operandsWith P sel i i).dst = (operandsWith P sel i i).src := by
  unfold operandsWith
  split
  · rfl
  · rfl

section
variable (P : Params) {sel : BitVec 2} (reg rm : BitVec 3)

/-- R54: with the direction bit clear `rm` names the destination. -/
theorem operandsWith_toRm (hd : sel[1] = false) :
    operandsWith P sel reg rm = ⟨resolveWith P sel rm, resolveWith P sel reg⟩ := by
  simp [operandsWith, hd]

/-- R54: with the direction bit set `reg` names the destination. -/
theorem operandsWith_toReg (hd : sel[1] = true) :
    operandsWith P sel reg rm = ⟨resolveWith P sel reg, resolveWith P sel rm⟩ := by
  simp [operandsWith, hd]

end

/-- R83: with the direction flipped and the fields exchanged the operands are the same. -/
theorem operandsWith_exchange (P : Params) {sel sel' : BitVec 2} (hw : sel[0] = sel'[0])
    (hd : sel[1] = true) (hd' : sel'[1] = false) (i j : BitVec 3) :
    operandsWith P sel i j = operandsWith P sel' j i := by
  rw [operandsWith_toReg P i j hd, operandsWith_toRm P j i hd', resolveWith_congr P hw,
    resolveWith_congr P hw]

/-! ### The effect of a move -/

/-- R76: a move's effect depends on its operands alone. -/
theorem moveWith_congr {P : Params} {sel sel' : BitVec 2} {reg rm reg' rm' : BitVec 3}
    (h : operandsWith P sel reg rm = operandsWith P sel' reg' rm') (s : State) :
    moveWith P sel reg rm s = moveWith P sel' reg' rm' s := by
  rw [moveWith, moveWith, h]

/-- R83: MOV reg8, r/m8 is MOV r/m8, reg8 with the fields exchanged, whatever `mod` holds. -/
theorem movReg8Rm8With_eq (P : Params) (mod mod' : BitVec 2) (i j : BitVec 3) (s : State) :
    movReg8Rm8With P mod i j s = movRm8Reg8With P mod' j i s :=
  moveWith_congr (operandsWith_exchange P (by decide) (by decide) (by decide) i j) s

/-- R83: MOV reg16, r/m16 is MOV r/m16, reg16 with the fields exchanged, whatever `mod` holds. -/
theorem movReg16Rm16With_eq (P : Params) (mod mod' : BitVec 2) (i j : BitVec 3) (s : State) :
    movReg16Rm16With P mod i j s = movRm16Reg16With P mod' j i s :=
  moveWith_congr (operandsWith_exchange P (by decide) (by decide) (by decide) i j) s

@[simp] theorem moved_regs (s : State) (r : TraceRecord) (x : RegFile) : (moved s r x).regs = x := by
  simp [moved]

@[simp] theorem moved_draws (s : State) (r : TraceRecord) (x : RegFile) :
    (moved s r x).draws = s.draws := by
  simp [moved]

section
variable {P : Params} {sel : BitVec 2} {reg rm : BitVec 3} {dst src : OperandRef} {s : State}
  (hops : operandsWith P sel reg rm = ⟨dst, src⟩) (hs : s.phase = .scanning)
  (hl : (s.pc : Int) + 1 < s.len)
include hops hs hl

/-- R76, R68: in phase Scanning a completed move leaves the state R68 writes out, and equal fields leave
the registers as they are. -/
theorem moveWith_scanning :
    ∃ x, transfer s.regs dst src = some x ∧ moveWith P sel reg rm s = .next (movedState s dst src x) ∧
      (reg = rm → x = s.regs) := by
  obtain ⟨x, hx, hmove⟩ := moveWith_completes P sel reg rm hl
  rw [moved_eq hs] at hmove
  rw [hops] at hx hmove
  refine ⟨x, hx, hmove, ?_⟩
  rintro rfl
  have hsame : dst = src := by simpa [hops] using operandsWith_same P sel reg
  rw [hsame, transfer_self] at hx
  exact (Option.some.inj hx).symm

/-- R78, R80: a completed byte move writes the source byte to the destination byte and no other. -/
theorem moveWith_copiesByte (hw : sel[0] = false) :
    ∃ x, secWrite s.regs dst (secRead s.regs src) = some x ∧
      moveWith P sel reg rm s = .next (movedState s dst src x) ∧
      secRead x dst = secRead s.regs src ∧
      (∀ o : OperandRef, o.sec.isByte = true → o ≠ dst → secRead x o = secRead s.regs o) ∧
      (reg = rm → x = s.regs) := by
  obtain ⟨x, hx, hmove, hself⟩ := moveWith_scanning hops hs hl
  have hbyte : dst.sec.isByte = true := by
    simpa [hops, hw] using (operandsWith_isByte P sel reg rm).1
  rw [transfer_byte s.regs hbyte] at hx
  exact ⟨x, hx, hmove, secRead_secWrite hx, fun _ => secRead_secWrite_otherByte hx hbyte, hself⟩

/-- R79, R81: a completed word move writes the source register to the destination register and no other. -/
theorem moveWith_copiesWord (hw : sel[0] = true) :
    ∃ x, moveWith P sel reg rm s = .next (movedState s dst src x) ∧
      x.get dst.reg = s.regs.get src.reg ∧
      (∀ q, q ≠ dst.reg → x.get q = s.regs.get q) ∧
      (reg = rm → x = s.regs) := by
  obtain ⟨x, hx, hmove, hself⟩ := moveWith_scanning hops hs hl
  have hword : dst.sec.isByte = false := by
    simpa [hops, hw] using (operandsWith_isByte P sel reg rm).1
  rw [transfer_word s.regs hword] at hx
  obtain rfl := Option.some.inj hx
  exact ⟨_, hmove, get_set_same .., fun _ => get_set_other s.regs _, hself⟩

end

end Sys2Proof.Machine
end

section
/-! SUPPORT. The statements on the move (spec/41_mov.md), settled. -/

namespace Sys2Proof.Machine

/-- Settles O9, by the width of the destination. -/
theorem transferCopiesTheSourceSection : Obligations.TransferCopiesTheSourceSection := by
  refine fun x dst src => ⟨transfer_eq_none_iff x dst src, fun y hy => ⟨fun q => transfer_other hy, ?_, ?_⟩⟩
  · intro hword
    rw [transfer_word x hword] at hy
    obtain rfl := Option.some.inj hy
    exact get_set_same ..
  · intro hbyte
    rw [transfer_byte x hbyte] at hy
    exact ⟨secRead_secWrite hy, fun o => secRead_secWrite_otherByte hy hbyte⟩

/-- Settles O10: the byte move whose destination is `rm`. -/
theorem movRm8Reg8CopiesAByte : Obligations.MovRm8Reg8CopiesAByte :=
  fun _ reg rm _ hs =>
    have hops := operandsWith_toRm Params.default reg rm (sel := 0b00#2) (by decide)
    ⟨moveWith_truncated _ _ reg rm, fun hl => moveWith_copiesByte hops hs hl (by simp)⟩

/-- Settles O11: the word move whose destination is `rm`. -/
theorem movRm16Reg16CopiesAWord : Obligations.MovRm16Reg16CopiesAWord :=
  fun _ reg rm _ hs =>
    have hops := operandsWith_toRm Params.default reg rm (sel := 0b01#2) (by decide)
    ⟨moveWith_truncated _ _ reg rm, fun hl => moveWith_copiesWord hops hs hl (by simp)⟩

/-- Settles O12: the byte move whose destination is `reg`. -/
theorem movReg8Rm8CopiesAByte : Obligations.MovReg8Rm8CopiesAByte :=
  fun _ reg rm _ hs =>
    have hops := operandsWith_toReg Params.default reg rm (sel := 0b10#2) (by decide)
    ⟨moveWith_truncated _ _ reg rm, fun hl => moveWith_copiesByte hops hs hl (by simp)⟩

/-- Settles O13: the word move whose destination is `reg`. -/
theorem movReg16Rm16CopiesAWord : Obligations.MovReg16Rm16CopiesAWord :=
  fun _ reg rm _ hs =>
    have hops := operandsWith_toReg Params.default reg rm (sel := 0b11#2) (by decide)
    ⟨moveWith_truncated _ _ reg rm, fun hl => moveWith_copiesWord hops hs hl (by simp)⟩

/-- Settles O14: the two indices name the halves of one register, and the two forms are one move. -/
theorem moveBetweenHalvesMakesThemEqual : Obligations.MoveBetweenHalvesMakesThemEqual := by
  intro mod i s _ hl
  obtain ⟨high, low, rfl⟩ := exists_cons i
  rw [cons_add_four]
  obtain ⟨x, hx, hmove⟩ := moveWith_completes Params.default 0b00#2 (low.cons high) (low.cons !high) hl
  obtain ⟨v, y, hv, hy, hboth⟩ :=
    transfer_otherHalf s.regs (generalReg Params.default.regOrder low) high
  rw [← resolve_byte_cons, ← resolve_byte_cons] at hy
  obtain rfl : x = y := Option.some.inj (hx.symm.trans hy)
  rw [resolve_byte_cons, resolve_byte_cons]
  exact ⟨rfl, v, _, _, hv, hmove, (movReg8Rm8With_eq _ mod mod _ _ s).trans hmove, rfl, by rwa [moved_regs]⟩

/-- Settles O15: a move's effect is that of its operands, and each operand is one width and one index. -/
theorem aMoveHasExactlyTwoFieldEncodings : Obligations.AMoveHasExactlyTwoFieldEncodings := by
  intro P hP
  constructor
  · exact fun mod mod' i j s => ⟨movReg8Rm8With_eq P mod mod' i j s, movReg16Rm16With_eq P mod mod' i j s⟩
  · intro b0 b1 b0' b1'
    rw [operandsWith_selOf, operandsWith_selOf, TraceRecord.mk.injEq, resolveWith_eq_iff hP,
      resolveWith_eq_iff hP, selOf_width_eq_iff, ← and_and_left]
    refine and_congr_right fun _ => ?_
    rcases bit_cases (dOf b0) with hd | hd <;> rcases bit_cases (dOf b0') with hd' | hd' <;>
      simp [hd, hd', and_comm]

/-- Settles O17, by the two things a move can do: abort as truncated, or transfer and be recorded. -/
theorem frameOfTheMoves : Obligations.FrameOfTheMoves := by
  intro i dst s t hdst h
  rw [exec_eq_execWith] at h
  rw [destinationOf_eq] at hdst
  obtain ⟨hf, -⟩ | ⟨sel, reg, rm, hf, ⟨hl, rfl⟩ | ⟨-, x, hx, rfl⟩⟩ := execWith_next h <;> rw [hf] at hdst
  case inl => cases hdst
  case inr.inl =>
    exact ⟨fun _ => rfl, rfl, rfl, rfl, rfl, fun _ _ => rfl, .inr ⟨rfl, hl⟩, .inl rfl⟩
  case inr.inr =>
    obtain rfl : _ = dst := Option.some.inj hdst
    refine ⟨fun a => by rw [moved_mem], moved_mem .., moved_len .., moved_hostStarts .., moved_draws ..,
      fun q hq => ?_, .inl (moved_err ..), .inr ⟨_, rfl, moved_trace ..⟩⟩
    rw [moved_regs]
    exact transfer_other hx hq

end Sys2Proof.Machine
end

section
/-! SUPPORT. The rules of spec/42_skip.md that the statements on the skip turn on: what a skip answers (R85), and
what the end-of-step check can change (R69). -/

namespace Sys2Proof.Machine

/-- R85, R86: on every state a skip advances the cursor and runs the end-of-step check, whatever its fields hold. -/
theorem exec_skip (op : BitVec 6) (d w : BitVec 1) (s : State) :
    exec (.skip op d w) s = .next (s.advance 1).finish := rfl

/-- R69: the end-of-step check changes at most the phase. -/
theorem finish_eq_withPhase (s : State) : s.finish = { s with phase := s.finish.phase } := by
  unfold State.finish
  split
  · rfl
  · rfl

/-- R69: the end-of-step check keeps the phase, or ends a pass. -/
theorem finish_phase_cases (s : State) :
    s.finish.phase = s.phase ∨ (s.phase = .scanning ∧ s.finish.phase = .done) := by
  rw [finish_phase]
  split
  case isTrue h => exact .inr ⟨h.1, rfl⟩
  case isFalse => exact .inl rfl

end Sys2Proof.Machine
end

section
/-! SUPPORT. The statements on the skip (spec/42_skip.md), settled. -/

namespace Sys2Proof.Machine

/-- Settles O18: a byte in the stream outside the move class is fetched as a skip, with no second byte needed. -/
theorem skipConsumesOneByte : Obligations.SkipConsumesOneByte := by
  intro s hs
  constructor
  · intro op d w
    rw [exec_skip, skip_eq hs]
  · intro P b0 hlt hb hop
    exact stepWith_skip hs (memRead_byte.2 ⟨hlt, hb⟩) hop

/-- Settles O19: advancing changes `pc` alone, and the end-of-step check the phase alone. -/
theorem frameOfTheSkip : Obligations.FrameOfTheSkip := by
  intro op d w s t h
  rw [exec_skip] at h
  obtain rfl := Host.Outcome.next.inj h
  exact ⟨fun a => by rw [finish_mem, advance_mem], fun q => by rw [finish_regs, advance_regs],
    finish_eq_withPhase (s.advance 1), finish_phase_cases (s.advance 1)⟩

end Sys2Proof.Machine
end

section
/-! SUPPORT. The rules of spec/60_exceptions.md that the statements on the aborts turn on: which steps abort
(R93), and what a start of no positive length answers (R89). -/

namespace Sys2Proof.Machine

/-- R69: a step that advanced did not abort the pass. -/
theorem phase_ne_aborted_of_advanced {s t : State} (h : Advanced s t) : t.phase ≠ .aborted := by
  rw [h.phase]
  split
  · nofun
  · nofun

/-- R89: at the default widths a start of no positive length is never refused, whatever its buffer holds. -/
theorem startWith_default_empty {r : StartRequest} (s : State) (hl : r.len ≤ 0) :
    startWith Params.default r s = .next (raiseMalformed .empty (loadPass r s)) :=
  startWith_empty (lenInRange_default r.len) (hl.trans (Int.natCast_nonneg _)) hl

end Sys2Proof.Machine
end

section
/-! SUPPORT. The statements on the aborts (spec/60_exceptions.md), settled. -/

namespace Sys2Proof.Machine

/-- Settles O28: the fetch reads the byte at the cursor alone, so the rest of the buffer may be any other. -/
theorem truncatedMoveAborts : Obligations.TruncatedMoveAborts := by
  intro P s b0 hs hlt _ hop hl
  refine ⟨by omega, fun m hm => ?_⟩
  have hr : memRead { s with mem := m } s.pc = .byte b0 := memRead_byte.2 ⟨hlt, hm⟩
  exact stepWith_truncated hs hr hop hl

/-- Settles O29: a step of a pass advances, and then it did not abort, or it leaves the truncated state. -/
theorem abortsArePrecise : Obligations.AbortsArePrecise := by
  intro P s t hs h haborted
  obtain hadv | ⟨ht, -⟩ := stepWith_advanced_or_truncated hs h
  · exact absurd haborted (phase_ne_aborted_of_advanced hadv)
  · exact ht

/-- Settles O25: the waiting step takes the start, which aborts before anything is read. -/
theorem emptyStreamAborts : Obligations.EmptyStreamAborts := by
  intro s r later hs hh hl
  have hstep : step s = .next (raiseMalformed .empty (loadPass r { s with hostStarts := later })) := by
    rw [aWaitingStepTakesTheNextStart s r later hs hh, startWith_default_empty _ hl]
  exact ⟨readIndices_waiting hs, _, hstep, rfl, rfl, rfl, rfl, rfl, rfl, rfl⟩

end Sys2Proof.Machine
end

section
/-! SUPPORT. The statement on consecutive moves (spec/70_reset_and_hazards.md), settled. -/

namespace Sys2Proof.Machine

/-- R69: a completed move with two more bytes after it leaves the pass going and a whole move to read. -/
theorem movedState_canMove {s : State} (hl : (s.pc : Int) + 3 < s.len) (dst src : OperandRef) (x : RegFile) :
    (movedState s dst src x).phase = .scanning ∧
      ((movedState s dst src x).pc : Int) + 1 < (movedState s dst src x).len := by
  refine ⟨if_neg (by omega), ?_⟩
  simp only [movedState]
  omega

/-- Settles O16: the second move's source is the first move's destination, so the two copies compose. -/
theorem aMoveSeesThePrecedingMove : Obligations.AMoveSeesThePrecedingMove := by
  intro mod mod' i j k s hs hl
  constructor
  case left =>
    obtain ⟨x, hfirst, hx, -⟩ := (movReg16Rm16CopiesAWord mod j i s hs).2 (by omega)
    obtain ⟨ht, htl⟩ := movedState_canMove hl (resolve 0b11#2 j) (resolve 0b11#2 i) x
    obtain ⟨y, hsecond, hy, -⟩ := (movReg16Rm16CopiesAWord mod' k j _ ht).2 htl
    exact ⟨_, _, hfirst, hsecond, hy.trans hx⟩
  case right =>
    obtain ⟨x, -, hfirst, hx, -⟩ := (movRm8Reg8CopiesAByte mod i j s hs).2 (by omega)
    obtain ⟨ht, htl⟩ := movedState_canMove hl (resolve 0b00#2 j) (resolve 0b00#2 i) x
    obtain ⟨y, -, hsecond, hy, -⟩ := (movRm8Reg8CopiesAByte mod' j k _ ht).2 htl
    exact ⟨_, _, hfirst, hsecond, hy.trans hx⟩

end Sys2Proof.Machine
end

section
/-! SUPPORT. The rules that the statement on finite cursors turns on: what every step keeps, every run keeps; and
the length of a started pass stays in the unit's range (D23). -/

namespace Sys2Proof.Machine

/-- What every step keeps holds in every state that a run reaches. -/
theorem run_invariant {P : Params} {I : State → Prop} (hstep : ∀ s t, I s → stepWith P s = .next t → I t)
    {k : Nat} {s t : State} (hs : I s) (h : (coreWith P).run k s = .next t) : I t := by
  induction k generalizing s with
  | zero => exact Host.Outcome.next.inj h ▸ hs
  | succ k ih =>
    obtain ⟨u, hu, hrun⟩ := run_succ_next P k h
    exact ih (hstep s u hs hu) hrun

/-- D23: a start that was not refused leaves a length in range, whatever the state it finds. -/
theorem lenInRange_startWith {P : Params} {r : StartRequest} {s t : State} (h : startWith P r s = .next t) :
    lenInRange P t.len = true := by
  obtain ⟨hrange, -, ⟨-, rfl⟩ | ⟨-, rfl⟩⟩ := startWith_next h
  · exact hrange
  · exact hrange

/-- D23: every step keeps the length in range, a step that takes a later start too. -/
theorem lenInRange_stepWith {P : Params} {s t : State} (hl : lenInRange P s.len = true)
    (h : stepWith P s = .next t) : lenInRange P t.len = true := by
  by_cases hs : s.phase = .scanning
  case pos =>
    obtain ⟨-, -, hlen, -⟩ := theBufferIsFixedDuringAPass P s t hs h
    rwa [hlen]
  case neg =>
    obtain ⟨-, rfl⟩ | ⟨_, _, -, hst⟩ := stepWith_waiting hs h
    · exact hl
    · exact lenInRange_startWith hst

/-- D23: a length in range is below the greatest value of a finite cursor. -/
theorem lt_of_lenInRange {P : Params} {w : Nat} {len : Int} (hw : P.addrW = some w)
    (h : lenInRange P len = true) : len < 2 ^ w - 1 := by
  by_contra hge
  exact lenInRange_eq_true.1 h (.inr ⟨w, hw, not_lt.1 hge⟩)

end Sys2Proof.Machine
end

section
/-! SUPPORT. The statements on finite cursors (D23) and on the example bytes, settled. -/

namespace Sys2Proof.Machine

/-- Settles O43: along the run the length stays in range and the cursor of a pass below the length (R72). -/
theorem acceptedLengthFitsTheCursor : Obligations.AcceptedLengthFitsTheCursor := by
  intro P w r s t0 t k hw hstart hrun hs
  have hi : Inv P t := run_invariant (fun _ _ => inv_stepWith) (inv_startWith hstart) hrun
  have hrange : lenInRange P t.len = true :=
    run_invariant (I := fun s => lenInRange P s.len = true) (fun _ _ => lenInRange_stepWith)
      (lenInRange_startWith hstart) hrun
  have hpc := hi.scanning hs
  have hlen := lt_of_lenInRange hw hrange
  omega

/-- Settles O1: the opcode field tells the moves and the skip apart, and `d` and `w` tell the four moves. -/
theorem exampleBytesDecode : Obligations.ExampleBytesDecode :=
  ⟨decodeWith_move rfl _ [], decodeWith_move rfl _ [], decodeWith_move rfl _ [], decodeWith_move rfl _ [],
    decodeWith_skip (by decide) [], decodeWith_truncated rfl⟩

end Sys2Proof.Machine
end
